-- ==== Sys2Proof/Word.lean ====
section
/-! DEFINITION. The words of the block (spec/00_scope.md R10): all unsigned, bit 0 the least significant. -/

namespace Sys2Proof

/-- An 8-bit value: the operand of `BYTE`, a colour channel, `cmd_data` (R10, R15). -/
abbrev Byte := BitVec 8

/-- A command word, `cmd[9:0]` (30_encoding.md R47). -/
abbrev CmdWord := BitVec 10

/-- A level of the data line in one cycle: `true` is 1 (high), `false` is 0 (low) (R12). -/
abbrev Level := Bool

end Sys2Proof
end

