-- ==== Sys2Proof/Config.lean ====
section
/-! DEFINITION. What is fixed when the block is built: the pulse timing profile (spec/00_scope.md R6, R7), and the
values the spec leaves open, as constants without a body. -/

namespace Sys2Proof

/-- The pulse timing profile (R6), each constant a natural number of cycles of `clk`. Constraint 1 of R7 is carried as
proofs: a profile with a zero constant cannot be written down, which is the spec's "the model refuses to be
instantiated with it" (U5). Constraint 2 (`T0H < T1H`) is `Profile.ordered` of WellFormed.lean, since a profile that
breaks only that one "still runs by every rule". -/
structure Profile where
  /-- cycles high in a 1 bit, `T1H` -/
  t1h : Nat
  /-- cycles low after the high phase of a 1 bit, `T1L` -/
  t1l : Nat
  /-- cycles high in a 0 bit, `T0H` -/
  t0h : Nat
  /-- cycles low after the high phase of a 0 bit, `T0L` -/
  t0l : Nat
  /-- cycles held low by `LATCH`, `TRES` -/
  tres : Nat
  t1h_pos : 1 ≤ t1h := by decide
  t1l_pos : 1 ≤ t1l := by decide
  t0h_pos : 1 ≤ t0h := by decide
  t0l_pos : 1 ≤ t0l := by decide
  tres_pos : 1 ≤ tres := by decide
deriving DecidableEq, Repr

/-- Building the block with five numbers, refused where R7 constraint 1 is broken (U5). -/
def Profile.build (t1h t1l t0h t0l tres : Nat) : Option Profile :=
  if h : 1 ≤ t1h ∧ 1 ≤ t1l ∧ 1 ≤ t0h ∧ 1 ≤ t0l ∧ 1 ≤ tres then
    some { t1h, t1l, t0h, t0l, tres, t1h_pos := h.1, t1l_pos := h.2.1, t0h_pos := h.2.2.1,
           t0l_pos := h.2.2.2.1, tres_pos := h.2.2.2.2 }
  else none

/-! The five constants of the profile are OPEN (R6, decision D6). These are how far each exceeds the least value R7
allows it; nothing in Lean knows them (log 1). -/
opaque Config.t0hExtra : Nat
opaque Config.t1hExtra : Nat
opaque Config.t1lExtra : Nat
opaque Config.t0lExtra : Nat
opaque Config.tresExtra : Nat

/-- The profile the block is built with: any profile that meets R7, both constraints (log 1). -/
def Config.profile : Profile where
  t0h := Config.t0hExtra + 1
  t1h := Config.t0hExtra + 1 + Config.t1hExtra + 1
  t1l := Config.t1lExtra + 1
  t0l := Config.t0lExtra + 1
  tres := Config.tresExtra + 1
  t1h_pos := by omega
  t1l_pos := by omega
  t0h_pos := by omega
  t0l_pos := by omega
  tres_pos := by omega

/-! The six registers before the first reset edge are unspecified (10_state.md R32, U1): "a draw" (log 7). The phase
is drawn as its 2-bit code, R18. -/
opaque Config.powerOnPhase : BitVec 2
opaque Config.powerOnCnt : Nat
opaque Config.powerOnCur : Bool
opaque Config.powerOnSh : Byte
opaque Config.powerOnRem : Fin 8
opaque Config.powerOnDout : Level

/-- The default of `GAP_TOL`, the number of extra low cycles between two commands of one frame that the host may let
pass (R8, D18). No rule of the block reads it; `wellPaced` of Safety.lean takes the tolerance as an argument. -/
def Config.gapTolDefault : Nat := 0

end Sys2Proof
end

