-- ==== Sys2Proof/Syntax.lean ====
section
/-! DEFINITION. The commands of the block (spec/30_encoding.md R48, R55), the input ports of a cycle (10_state.md R15),
and what a host can be told to do: the lines of R56 and the operations of SN's interface (R57). -/

namespace Sys2Proof

/-- The values of the decoder of R55, one per row of spec/opcode_table.json. The ignored bits of a word are no
operand (R54) and are not here. -/
inductive Instr where
  /-- `BIT b` (R73): emit one bit cell. -/
  | bit (b : Bool)
  /-- `BYTE v` (R83): emit the eight cells of `v`, bit 7 first. -/
  | byte (v : Byte)
  /-- `LATCH` (R91): hold the line low for `TRES` cycles. -/
  | latch
  /-- `op = 0b11` (R53): reserved, no command; the row `RESERVED` of the table. -/
  | reserved
deriving DecidableEq, Repr

/-- What stands on the input ports during one cycle, `in(n)` (00_scope.md R11). -/
structure Inputs where
  rst : Bool
  valid : Bool
  op : BitVec 2
  data : Byte
deriving DecidableEq, Repr

/-- The wire order of the three colour bytes (44_host_pixel_layer.md R103). -/
inductive ChannelOrder where
  | rgb
  | grb
  | brg
deriving DecidableEq, Repr

/-- Three channel values, always in red-green-blue order (R104). -/
structure Colour where
  r : Byte
  g : Byte
  b : Byte
deriving DecidableEq, Repr

/-- The operations of SN's interface, the host's pseudo-instructions (R57, 44_host_pixel_layer.md). -/
inductive HostCall where
  /-- `emit_bit(value)` (R57) -/
  | emitBit (b : Bool)
  /-- `emit_byte(value)` (R57) -/
  | emitByte (v : Byte)
  /-- `construct(pixel_count, output_pin, (color_order, speed_flags))` (R101) -/
  | construct (pixelCount pin : Nat) (order : ChannelOrder) (speedFlags : Nat)
  /-- `begin()` (R102) -/
  | beginOutput
  /-- `set_output_pin(pin)` (R100, R4) -/
  | setOutputPin (pin : Nat)
  /-- `send_pixel(r, g, b)` (R104) -/
  | sendPixel (c : Colour)
  /-- `send_pixel_packed(index, color)` (R106) -/
  | sendPixelPacked (index : Nat) (color : BitVec 32)
  /-- `pack_color(r, g, b)` (R107) -/
  | packColor (c : Colour)
  /-- `set_brightness(level)` (R109) -/
  | setBrightness (level : Byte)
  /-- `get_brightness()` (R110) -/
  | getBrightness
  /-- `clear()` (R112) -/
  | clear
  /-- `pixel_count()` (R113) -/
  | pixelCount
  /-- `show()`, `latch_frame()` (R114) -/
  | latchFrame
  /-- `send_frame(colours)` (R115) -/
  | sendFrame (colours : List Colour)
deriving DecidableEq, Repr

/-- What an operation returns to its caller. -/
inductive HostValue where
  | nothing
  | byte (v : Byte)
  | word (w : BitVec 32)
  | count (n : Nat)
deriving DecidableEq, Repr

/-- What the host does on the ports: the lines of a program (R56), and one arbitrary cycle (R142: the host may set the
port "to anything in any cycle"). -/
inductive PortAction where
  /-- These inputs in the next cycle, whatever `cmd_ready` is. -/
  | raw (i : Inputs)
  /-- Eager: present this word in every cycle until it is accepted. -/
  | present (w : CmdWord)
  /-- `IDLE k`: nothing presented for `k` cycles in which `cmd_ready = 1`. -/
  | idle (k : Nat)
  /-- `WAIT k`: nothing presented for the next `k` cycles, whatever `cmd_ready` is. -/
  | wait (k : Nat)
  /-- `RST`: `rst = 1` in the next cycle, for one edge. -/
  | rst
deriving DecidableEq, Repr

/-- One item of the host's script: an action on the ports, or a call of the pixel layer, expanded when it is reached. -/
inductive HostAction where
  | port (a : PortAction)
  | call (c : HostCall)
deriving DecidableEq, Repr

end Sys2Proof
end

