-- ==== Sys2Proof/WellFormed.lean ====
section
/-! DEFINITION. What the spec asks of what is written down before a run: a command that is not the reserved one
(spec/70_reset_and_hazards.md R149), a profile in order (00_scope.md R7), a frame of the Strand's length
(44_host_pixel_layer.md R115). Operand widths need no check: the types of Syntax.lean carry them (R52). -/

namespace Sys2Proof

/-- A command the host may present: every one but the reserved operation (R53, R149). -/
def Instr.wf : Instr → Bool
  | .bit _ => true
  | .byte _ => true
  | .latch => true
  | .reserved => false

/-- Constraint 2 of R7 (U6, D24): a 0 bit's high phase is the shorter one. -/
def Profile.ordered (p : Profile) : Bool := decide (p.t0h < p.t1h)

/-- A call whose arguments R115 speaks of: `send_frame` takes exactly `pixel_count` colours. -/
def HostCall.wf (pixelCount : Nat) : HostCall → Bool
  | .sendFrame colours => colours.length == pixelCount
  | .emitBit _ => true
  | .emitByte _ => true
  | .construct _ _ _ _ => true
  | .beginOutput => true
  | .setOutputPin _ => true
  | .sendPixel _ => true
  | .sendPixelPacked _ _ => true
  | .packColor _ => true
  | .setBrightness _ => true
  | .getBrightness => true
  | .clear => true
  | .pixelCount => true
  | .latchFrame => true

/-- An action that can never put the reserved operation before the block (R149): match and mask of R48. -/
def PortAction.wf : PortAction → Bool
  | .raw i => i.rst || !i.valid || i.op != 0b11#2
  | .present w => (w &&& 0x300#10) != 0x300#10
  | .idle _ => true
  | .wait _ => true
  | .rst => true

end Sys2Proof
end

