-- ==== Sys2Proof/Decode.lean ====
section
/-! DEFINITION. The decoder of spec/30_encoding.md R55 and, after it, the encoder of R56; the match and mask table of
R48. -/

namespace Sys2Proof

/-- `cmd[9:8] = cmd_op` (R47). -/
def opField (w : CmdWord) : BitVec 2 := w.extractLsb' 8 2

/-- `cmd[7:0] = cmd_data` (R47). -/
def dataField (w : CmdWord) : Byte := w.extractLsb' 0 8

/-- `(cmd_op, cmd_data)` concatenated to one command word (R47). -/
def wordOf (op : BitVec 2) (data : Byte) : CmdWord := op ++ data

/-- The operand of `BIT`: `b = cmd_data[0]`, the other bits ignored (R49, R52, R54). -/
def bitOperand (data : Byte) : Bool := data.getLsbD 0

/-- The operand of `BYTE`: `v = cmd_data[7:0]` (R50, R52). -/
def byteOperand (data : Byte) : Byte := data

/-- The decoder of R55, total on the 1024 words. -/
def decode (w : CmdWord) : Instr :=
  if opField w = 0b00#2 then .bit (bitOperand (dataField w))
  else if opField w = 0b01#2 then .byte (byteOperand (dataField w))
  else if opField w = 0b10#2 then .latch
  else .reserved

/-- The words of R56: `BIT b` is `0x000 + b`, `BYTE v` is `0x100 + v`, `LATCH` is `0x200`; ignored bits are written as
zeros (R54). The reserved row gets its match word `0x300` (R48). -/
def encode : Instr → CmdWord
  | .bit b => if b then 0x001#10 else 0x000#10
  | .byte v => wordOf 0b01#2 v
  | .latch => 0x200#10
  | .reserved => 0x300#10

/-- A row of the match and mask table (R48). -/
structure OpcodeRow where
  mnemonic : String
  matchWord : CmdWord
  mask : CmdWord
deriving DecidableEq, Repr

/-- The table of R48, which spec/opcode_table.json copies. -/
def opcodeTable : List OpcodeRow :=
  [⟨"BIT", 0x000#10, 0x300#10⟩, ⟨"BYTE", 0x100#10, 0x300#10⟩, ⟨"LATCH", 0x200#10, 0x300#10⟩,
   ⟨"RESERVED", 0x300#10, 0x300#10⟩]

/-- A word is one of a row's when it agrees with the row's match under its mask (R48). -/
def OpcodeRow.covers (r : OpcodeRow) (w : CmdWord) : Bool := (w &&& r.mask) == r.matchWord

/-- The row of the table a command stands in. -/
def Instr.mnemonic : Instr → String
  | .bit _ => "BIT"
  | .byte _ => "BYTE"
  | .latch => "LATCH"
  | .reserved => "RESERVED"

/-- The bits of a word that its command reads; the others are ignored (R54). -/
def Instr.readMask : Instr → CmdWord
  | .bit _ => 0x301#10
  | .byte _ => 0x3FF#10
  | .latch => 0x300#10
  | .reserved => 0x300#10

/-- What is wrong with a number that no command word has. -/
inductive DecodeError where
  /-- A bit above bit 9 is set: a command has ten bits and "there is no other length" (R47; log 13). -/
  | widerThanThePort
deriving DecidableEq, Repr

/-- The decoder on any number, rejecting by name one that does not fit the ten wires of the port (R47). -/
def decodeNat (w : Nat) : Except DecodeError Instr :=
  if w < 1024 then .ok (decode (BitVec.ofNat 10 w)) else .error .widerThanThePort

/-- The decoder, on bits numbered as spec/opcode_table.json numbers them: bit 0 is `cmd[0]`. A command is one word of
ten bits, so the number of bits the table gives the row adds nothing. -/
def decodeTableWord (_nbits w : Nat) : Option Instr :=
  match decodeNat w with
  | .ok i => some i
  | .error _ => none

end Sys2Proof
end

