-- ==== Sys2Proof/Machine/State.lean ====
section
/-! DEFINITION. The state of the machine: the six registers of the block (spec/10_state.md R17), the profile it was
built with, and the host that drives it (R131). -/

namespace Sys2Proof.Machine

/-- The four phases of the sequencer (R18). -/
inductive Phase where
  | idle
  | high
  | low
  | reset
deriving DecidableEq, Repr

/-- The block's whole state (R17). `cnt` is a natural number, as R62 and D25 allow (log 4); `cur` and `dout` are single
bits, `true` for 1. -/
structure Registers where
  /-- the sequencer's phase (R18) -/
  phase : Phase
  /-- cycles left in the phase, counting the current one; 0 in `IDLE` (R19) -/
  cnt : Nat
  /-- the bit whose cell is being emitted (R20) -/
  cur : Bool
  /-- the bits of the byte not yet begun, next bit first (R20) -/
  sh : Byte
  /-- how many bits of the command are still to begin (R20) -/
  rem : Fin 8
  /-- the level of the data line (R21) -/
  dout : Level
deriving DecidableEq, Repr

/-- The registers after a reset edge (R31). -/
def Registers.reset : Registers :=
  { phase := .idle, cnt := 0, cur := false, sh := 0#8, rem := 0, dout := false }

/-- The host's record of one LED string (44_host_pixel_layer.md R100). -/
structure Strand where
  /-- number of LEDs in the string -/
  pixelCount : Nat
  /-- identifier of the pin `dout` reaches (log 16) -/
  pin : Nat
  /-- the wire order of the colour bytes -/
  order : ChannelOrder
  /-- the stored (biased) brightness -/
  bri : Byte
deriving DecidableEq, Repr

/-- The Strand in `State.reset`: DESIGN CHOICE (log 8), no pixel, pin 0; the default order (R103) and the brightness
R101 gives a Strand after `construct`. -/
def Strand.initial : Strand := { pixelCount := 0, pin := 0, order := .rgb, bri := 0#8 }

/-- The block raises no exception and has no trap (60_exceptions.md R122, R124, R127): no step ends in a fault. -/
inductive Fault where
deriving DecidableEq, Repr

/-- Why the model gives a step no next state. -/
inductive Refusal where
  /-- An arm of `exec` that has no meaning yet; raised by `exec` only. Safe. -/
  | notModelled (mnemonic : String)
  /-- `refuse(reserved_op)` (30_encoding.md R53): a command with `op = 0b11` is accepted; raised by `execReserved`.
  Safe: "the refusal errs toward unprovable". -/
  | reservedOp
  /-- A phase other than `IDLE` with `cnt = 0`: a state no run from reset reaches and no rule but reset speaks of
  (70_reset_and_hazards.md R140, U5); raised by `advance`. Safe (log 5). -/
  | noRuleForState
deriving DecidableEq, Repr

/-- The machine: block, configuration, host. -/
structure State where
  /-- the six registers (R17) -/
  regs : Registers
  /-- the pulse timing profile, fixed when the block is built; no step changes it (R6, R33; log 1) -/
  profile : Profile
  /-- the host's Strand (R100) -/
  strand : Strand
  /-- what the host does from this cycle on; when it is empty the host presents nothing (log 2) -/
  script : List HostAction
deriving DecidableEq, Repr

/-- The machine right after reset (R31): the block in its reset state, built with an unknown legal profile, and a host
that has nothing to do (log 3). -/
def State.reset : State :=
  { regs := Registers.reset, profile := Config.profile, strand := Strand.initial, script := [] }

end Sys2Proof.Machine
end

