-- ==== Sys2Proof/Machine/Flags.lean ====
section
/-! DEFINITION. The block's outputs and the signal `done` (spec/10_state.md R18, R21 to R23; 40_sequencer.md R63): there
are no other flags (R23). -/

namespace Sys2Proof.Machine

/-- The level that goes with a phase: high in `HIGH` only (R18, R69). -/
def Phase.level : Phase → Level
  | .idle => false
  | .high => true
  | .low => false
  | .reset => false

/-- The 2-bit encoding of the phase register (R18). -/
def Phase.code : Phase → BitVec 2
  | .idle => 0b00#2
  | .high => 0b01#2
  | .low => 0b10#2
  | .reset => 0b11#2

/-- The phase a 2-bit code stands for (R18). -/
def Phase.ofCode (c : BitVec 2) : Phase :=
  if c = 0b00#2 then .idle else if c = 0b01#2 then .high else if c = 0b10#2 then .low else .reset

/-- `done` (R63): a command can be taken at the coming edge. -/
def Registers.done (r : Registers) : Bool :=
  match r.phase with
  | .idle => true
  | .high => false
  | .low => decide (r.cnt = 1) && decide (r.rem = 0)
  | .reset => decide (r.cnt = 1)

/-- `cmd_ready = done` (R22). -/
def Registers.cmdReady (r : Registers) : Bool := r.done

/-- `busy` is 1 exactly when the phase is not `IDLE` (R23). -/
def Registers.busy (r : Registers) : Bool := decide (r.phase ≠ .idle)

/-- The three outputs of a cycle (R15, R72), functions of the registers alone (R11). -/
structure Outputs where
  cmdReady : Bool
  busy : Bool
  dout : Level
deriving DecidableEq, Repr

/-- `outputs(S)` of R72. -/
def Registers.outputs (r : Registers) : Outputs :=
  { cmdReady := r.cmdReady, busy := r.busy, dout := r.dout }

end Sys2Proof.Machine
end

