-- ==== Sys2Proof/Machine/Operands.lean ====
section
/-! DEFINITION. The timing profile's helpers (spec/00_scope.md R8, R9) and the serializer's registers: how an operand is
copied into `cur`, `sh` and `rem` at acceptance, and the shift at a bit boundary (10_state.md R20). -/

namespace Sys2Proof.Machine

/-- `TH(b)`: high cycles of the cell of `b` (R9). -/
def highTime (p : Profile) (b : Bool) : Nat := if b then p.t1h else p.t0h

/-- `TL(b)`: low cycles of the cell of `b` (R9). -/
def lowTime (p : Profile) (b : Bool) : Nat := if b then p.t1l else p.t0l

/-- The longest of the five constants. -/
def longestPhase (p : Profile) : Nat := max (max (max p.t1h p.t1l) (max p.t0h p.t0l)) p.tres

/-- `CNT_W`, the width of `cnt`: the least `w` with `2^w` above every constant (R8). -/
def cntWidth (p : Profile) : Nat := (longestPhase p).log2 + 1

/-- After `BIT b` is accepted, `cur = b`, `sh = 0`, `rem = 0` (R20). -/
def loadBit (b : Bool) (r : Registers) : Registers := { r with cur := b, sh := 0#8, rem := 0 }

/-- A byte shifted left by one, a 0 entering at bit 0: `{x[6:0], 0}` (R10, R62). -/
def shiftIn0 (x : Byte) : Byte := x <<< 1

/-- After `BYTE v` is accepted, `cur = v[7]`, `sh = {v[6:0], 0}`, `rem = 7` (R20). -/
def loadByte (v : Byte) (r : Registers) : Registers :=
  { r with cur := v.getLsbD 7, sh := shiftIn0 v, rem := 7 }

/-- `rem - 1`, done only when `rem > 0` (R20, R62). -/
def lowerRem (k : Fin 8) : Fin 8 := ⟨k.val - 1, by omega⟩

/-- At a bit boundary inside a byte: `cur <- sh[7]`, `sh <- {sh[6:0], 0}`, `rem <- rem - 1`, all from the values before
the edge (R20, R84). -/
def nextBit (r : Registers) : Registers :=
  { r with cur := r.sh.getLsbD 7, sh := shiftIn0 r.sh, rem := lowerRem r.rem }

end Sys2Proof.Machine
end

