-- ==== Sys2Proof/Machine/Ops.lean ====
section
/-! DEFINITION. The arms of one clock step that no command names (spec/40_sequencer.md R65 to R69, 10_state.md R31), over
the registers and then over the machine. There is no memory to access and no exception to take (20_memory.md R35,
60_exceptions.md R122). -/

namespace Sys2Proof.Machine

/-- Enter a phase for `k` cycles: `phase`, `cnt`, and `dout` at the level of the phase being entered (R69). -/
def Registers.enterPhase (ph : Phase) (k : Nat) (r : Registers) : Registers :=
  { r with phase := ph, cnt := k, dout := ph.level }

/-- Begin the cell of the bit in `cur`: `HIGH` for `TH(cur)` cycles (R73, R83, R84). -/
def Registers.beginCell (p : Profile) (r : Registers) : Registers :=
  r.enterPhase .high (highTime p r.cur)

/-- `to_idle` (R68). -/
def Registers.toIdle (r : Registers) : Registers := r.enterPhase .idle 0

/-- The count-down inside a phase (R66). -/
def Registers.countDown (r : Registers) : Registers := r.enterPhase r.phase (r.cnt - 1)

/-- From `HIGH` to `LOW` for `TL(cur)` cycles (R67, R75). -/
def Registers.fall (p : Profile) (r : Registers) : Registers := r.enterPhase .low (lowTime p r.cur)

/-- The bit boundary inside a byte: the next bit's cell begins (R67, R84). -/
def Registers.nextCell (p : Profile) (r : Registers) : Registers := (nextBit r).beginCell p

/-- `advance` (R66, R67), for registers that are not `done`; `none` where no rule gives a next state: a running phase
with `cnt = 0`, and the two phases that at `cnt = 1` are `done` (R63, R67). -/
def Registers.advance (p : Profile) (r : Registers) : Option Registers :=
  if 1 < r.cnt then some r.countDown
  else if r.cnt = 1 then
    match r.phase with
    | .high => some (r.fall p)
    | .low => some (r.nextCell p)
    | .idle => none
    | .reset => none
  else none

/-- A step of the machine that gives the block new registers and changes nothing else. -/
def State.withRegs (s : State) (r : Registers) : State := { s with regs := r }

/-- `reset_arm` (R31, R136): from any state, the registers alone. -/
def resetArm (s : State) : Host.Outcome State Fault Refusal := .next (s.withRegs Registers.reset)

/-- The `to_idle` arm (R65, R68). -/
def toIdleArm (s : State) : Host.Outcome State Fault Refusal := .next (s.withRegs s.regs.toIdle)

/-- The `advance` arm (R65 to R67). -/
def advanceArm (s : State) : Host.Outcome State Fault Refusal :=
  match s.regs.advance s.profile with
  | some r => .next (s.withRegs r)
  | none => .refused .noRuleForState

/-- The machine at power-on, before the first reset edge: every register unspecified (R32; log 7). The profile is
fixed when the block is built, and the host has done nothing. -/
def State.powerOn : State :=
  { regs := { phase := Phase.ofCode Config.powerOnPhase, cnt := Config.powerOnCnt, cur := Config.powerOnCur,
              sh := Config.powerOnSh, rem := Config.powerOnRem, dout := Config.powerOnDout },
    profile := Config.profile, strand := Strand.initial, script := [] }

end Sys2Proof.Machine
end

