-- ==== Sys2Proof/Machine/BitEmitter.lean ====
section
/-! DEFINITION. The `BIT` command (spec/41_bit_emitter.md). -/

namespace Sys2Proof.Machine

/-- `start(BIT b)` (R73), the arm taken at the edge that accepts it; the later edges are `advance` and `to_idle`
(R74 to R76; log 11). -/
def execBit (b : Bool) (s : State) : Host.Outcome State Fault Refusal :=
  .next (s.withRegs ((loadBit b s.regs).beginCell s.profile))

end Sys2Proof.Machine
end

