-- ==== Sys2Proof/Machine/ByteSerializer.lean ====
section
/-! DEFINITION. The `BYTE` command (spec/42_byte_serializer.md). -/

namespace Sys2Proof.Machine

/-- `start(BYTE v)` (R83), the arm taken at the edge that accepts it; the seven bit boundaries are `advance`
(R84; log 11). -/
def execByte (v : Byte) (s : State) : Host.Outcome State Fault Refusal :=
  .next (s.withRegs ((loadByte v s.regs).beginCell s.profile))

end Sys2Proof.Machine
end

