-- ==== Sys2Proof/Machine/FrameLatch.lean ====
section
/-! DEFINITION. The `LATCH` command (spec/43_frame_latch.md) and the reserved operation (30_encoding.md R53). -/

namespace Sys2Proof.Machine

/-- `start(LATCH)` (R91): `RESET` for `TRES` cycles; `cur`, `sh` and `rem` keep their values (log 11). -/
def execLatch (s : State) : Host.Outcome State Fault Refusal :=
  .next (s.withRegs (s.regs.enterPhase .reset s.profile.tres))

/-- The reserved operation at an accepting edge (R53): "the model's outcome is `refuse(reserved_op)`, not a next
state". -/
def execReserved (_s : State) : Host.Outcome State Fault Refusal := .refused .reservedOp

end Sys2Proof.Machine
end

