-- ==== Sys2Proof/Machine/Dispatch.lean ====
section
/-! DEFINITION. `start` of spec/40_sequencer.md R65: one arm per row of the opcode table. -/

namespace Sys2Proof.Machine

/-- `start(decode({cmd_op, cmd_data}))` (R65). -/
def exec (i : Instr) (s : State) : Host.Outcome State Fault Refusal :=
  match i with
  | .bit b => Sys2Proof.Machine.execBit b s
  | .byte v => Sys2Proof.Machine.execByte v s
  | .latch => Sys2Proof.Machine.execLatch s
  | .reserved => Sys2Proof.Machine.execReserved s

end Sys2Proof.Machine
end

