-- ==== Sys2Proof/Machine/HostLayer.lean ====
section
/-! DEFINITION. The host's pixel layer (spec/44_host_pixel_layer.md), software above the block: what each operation of
SN's interface does to the Strand, which commands it sends, and what it returns. -/

namespace Sys2Proof.Machine

/-- `scale(c)` for the stored brightness (R108): `c` itself at 0, else the high byte of the 16-bit product. -/
def scale (bri c : Byte) : Byte :=
  if bri = 0#8 then c else (c.setWidth 16 * bri.setWidth 16).extractLsb' 8 8

/-- The stored brightness after `set_brightness(level)`: `(level + 1) mod 256` (R109). -/
def biasBrightness (level : Byte) : Byte := level + 1#8

/-- What `get_brightness()` returns for a stored brightness: `(bri - 1) mod 256` (R110). -/
def unbiasBrightness (bri : Byte) : Byte := bri - 1#8

/-- `wire(order, r, g, b)`, first byte first (R103). -/
def wireOrder (order : ChannelOrder) (c : Colour) : List Byte :=
  match order with
  | .rgb => [c.r, c.g, c.b]
  | .grb => [c.g, c.r, c.b]
  | .brg => [c.b, c.r, c.g]

/-- `pack_color(r, g, b)`, `(r << 16) | (g << 8) | b`, the top byte 0 (R107). -/
def packColour (c : Colour) : BitVec 32 :=
  (c.r.setWidth 32 <<< 16) ||| (c.g.setWidth 32 <<< 8) ||| c.b.setWidth 32

/-- `unpack(color)`, the top byte ignored (R107, R106). -/
def unpackColour (w : BitVec 32) : Colour :=
  { r := w.extractLsb' 16 8, g := w.extractLsb' 8 8, b := w.extractLsb' 0 8 }

/-- A colour with every channel scaled by the Strand's brightness (R104, R108). -/
def Strand.scaled (st : Strand) (c : Colour) : Colour :=
  { r := scale st.bri c.r, g := scale st.bri c.g, b := scale st.bri c.b }

/-- The bytes `send_pixel` puts on the wire, first byte first (R104). -/
def Strand.pixelBytes (st : Strand) (c : Colour) : List Byte := wireOrder st.order (st.scaled c)

/-- The commands of `send_pixel`: three `BYTE`s (R104). -/
def Strand.sendPixel (st : Strand) (c : Colour) : List PortAction :=
  (st.pixelBytes c).map fun v => .present (encode (.byte v))

end Sys2Proof.Machine

namespace Sys2Proof

open Machine

/-- The actions a call expands to (R57). `begin()` is one reset edge (R102); `send_frame` is its first `pixel_count`
pixels and one `LATCH` (R115; log 15). -/
def HostCall.actions (st : Strand) : HostCall → List PortAction
  | .emitBit b => [.present (encode (.bit b))]
  | .emitByte v => [.present (encode (.byte v))]
  | .construct _ _ _ _ => []
  | .beginOutput => [.rst]
  | .setOutputPin _ => []
  | .sendPixel c => st.sendPixel c
  | .sendPixelPacked _ color => st.sendPixel (unpackColour color)
  | .packColor _ => []
  | .setBrightness _ => []
  | .getBrightness => []
  | .clear => []
  | .pixelCount => []
  | .latchFrame => [.present (encode .latch)]
  | .sendFrame colours =>
    (colours.take st.pixelCount).flatMap st.sendPixel ++ [.present (encode .latch)]

/-- The Strand after a call (R100): `construct` makes a new one with stored brightness 0 (R101), `set_brightness` and
`set_output_pin` write one field each, and nothing else writes it. -/
def HostCall.strandAfter (st : Strand) : HostCall → Strand
  | .construct n pin order _ => { pixelCount := n, pin := pin, order := order, bri := 0#8 }
  | .setOutputPin pin => { st with pin := pin }
  | .setBrightness level => { st with bri := biasBrightness level }
  | .emitBit _ => st
  | .emitByte _ => st
  | .beginOutput => st
  | .sendPixel _ => st
  | .sendPixelPacked _ _ => st
  | .packColor _ => st
  | .getBrightness => st
  | .clear => st
  | .pixelCount => st
  | .latchFrame => st
  | .sendFrame _ => st

/-- What a call returns to its caller (R107, R110, R113). -/
def HostCall.result (st : Strand) : HostCall → HostValue
  | .packColor c => .word (packColour c)
  | .getBrightness => .byte (unbiasBrightness st.bri)
  | .pixelCount => .count st.pixelCount
  | .construct _ _ _ _ => .nothing
  | .setOutputPin _ => .nothing
  | .setBrightness _ => .nothing
  | .emitBit _ => .nothing
  | .emitByte _ => .nothing
  | .beginOutput => .nothing
  | .sendPixel _ => .nothing
  | .sendPixelPacked _ _ => .nothing
  | .clear => .nothing
  | .latchFrame => .nothing
  | .sendFrame _ => .nothing

end Sys2Proof
end

