-- ==== Sys2Proof/Machine/HostAgent.lean ====
section
/-! DEFINITION. The host as an agent (spec/60_exceptions.md R131): in each cycle its script gives the inputs, seeing
`cmd_ready` as an eager host does (30_encoding.md R56). -/

namespace Sys2Proof

/-- The host presents nothing. The word is then not read (R46, R64). -/
def Inputs.nothing : Inputs := { rst := false, valid := false, op := 0#2, data := 0#8 }

/-- The command word standing on the port (R47). -/
def Inputs.word (i : Inputs) : CmdWord := wordOf i.op i.data

/-- The host presents a word (R47). -/
def Inputs.presenting (w : CmdWord) : Inputs :=
  { rst := false, valid := true, op := opField w, data := dataField w }

/-- A line that takes no cycle. -/
def PortAction.takesNoCycle : PortAction → Bool
  | .idle k => k == 0
  | .wait k => k == 0
  | .raw _ => false
  | .present _ => false
  | .rst => false

/-- What an action puts on the input ports in this cycle (R56). -/
def PortAction.inputs : PortAction → Inputs
  | .raw i => i
  | .present w => Inputs.presenting w
  | .idle _ => Inputs.nothing
  | .wait _ => Inputs.nothing
  | .rst => { Inputs.nothing with rst := true }

/-- What is left of an action after a cycle, `cmd_ready` being `ready` in it (R56): a presented word stays until it is
accepted, `IDLE` counts only ready cycles, `WAIT` every cycle. -/
def PortAction.after (ready : Bool) : PortAction → Option PortAction
  | .raw _ => none
  | .present w => if ready then none else some (.present w)
  | .idle k => if ready then (if k ≤ 1 then none else some (.idle (k - 1))) else some (.idle k)
  | .wait k => if k ≤ 1 then none else some (.wait (k - 1))
  | .rst => none

/-- The action puts a command word before the block, to be taken (R143: a command, not a gap and not a reset). A cycle
with `rst = 1` is a reset whatever else stands on the port (R64; log 23). -/
def PortAction.presentsWord : PortAction → Bool
  | .raw i => i.valid && !i.rst
  | .present _ => true
  | .idle _ => false
  | .wait _ => false
  | .rst => false

end Sys2Proof

namespace Sys2Proof.Machine

/-- Run the script up to its next action that takes a cycle: calls are expanded, and write the Strand, as they are
reached, in no cycle of their own (log 17). -/
def settle (st : Strand) : List HostAction → Strand × Option (PortAction × List HostAction)
  | [] => (st, none)
  | .port a :: rest => if a.takesNoCycle then settle st rest else (st, some (a, rest))
  | .call c :: rest =>
    match c.actions st with
    | [] => settle (c.strandAfter st) rest
    | a :: more => (c.strandAfter st, some (a, more.map .port ++ rest))

/-- Everything a script still asks of the port, in order: each call is expanded with the Strand that the calls before it
leave (R57). -/
def expand (st : Strand) : List HostAction → List PortAction
  | [] => []
  | .port a :: rest => a :: expand st rest
  | .call c :: rest => c.actions st ++ expand (c.strandAfter st) rest

/-- Every command of the host's list has been accepted (R143): none is left in the script. Gaps and resets may be. -/
def State.commandsAllAccepted (s : State) : Bool := !(expand s.strand s.script).any PortAction.presentsWord

/-- The Strand after this cycle's calls. -/
def State.nextStrand (s : State) : Strand := (settle s.strand s.script).1

/-- `in(n)`: what stands on the input ports in this cycle (R11). -/
def State.inputs (s : State) : Inputs :=
  match (settle s.strand s.script).2 with
  | none => Inputs.nothing
  | some (a, _) => a.inputs

/-- What the host still has to do after this cycle. -/
def State.nextScript (s : State) : List HostAction :=
  match (settle s.strand s.script).2 with
  | none => []
  | some (a, rest) =>
    match a.after s.regs.cmdReady with
    | none => rest
    | some a' => .port a' :: rest

/-- The machine after the host's move of this cycle; the block has not moved. -/
def State.afterHost (s : State) : State :=
  { s with strand := s.nextStrand, script := s.nextScript }

end Sys2Proof.Machine
end

