-- ==== Sys2Proof/Machine/Sequencer.lean ====
section
/-! DEFINITION. Which of the four arms an edge performs (spec/40_sequencer.md R64, R65), and placing a command on the
port. -/

namespace Sys2Proof.Machine

/-- The four arms of R65. -/
inductive EdgeArm where
  | reset
  | start (i : Instr)
  | toIdle
  | advance
deriving DecidableEq, Repr

/-- The arm chosen for inputs `i` (R65): reset first, then acceptance, then to idle, then advance. -/
def Registers.armFor (r : Registers) (i : Inputs) : EdgeArm :=
  if i.rst then .reset
  else if r.done then (if i.valid then .start (decode i.word) else .toIdle)
  else .advance

/-- The arm of this cycle's edge. -/
def State.arm (s : State) : EdgeArm := s.regs.armFor s.inputs

/-- The command accepted in this cycle, if one is (R64). -/
def State.accepted (s : State) : Option Instr :=
  match s.arm with
  | .start i => some i
  | .reset => none
  | .toIdle => none
  | .advance => none

/-- Put the command word `w` before the block in the coming cycle, so that the next edge accepts it: a block that is
not ready is first made idle, and a number wider than the port is no command and is not presented (log 12, log 13). -/
def State.presentNext (s : State) (w : Nat) : State :=
  { s with
    regs := if s.regs.done then s.regs else s.regs.toIdle,
    script := .port (if w < 1024 then .present (BitVec.ofNat 10 w) else .wait 1) :: s.script }

end Sys2Proof.Machine
end

