-- ==== Sys2Proof/Machine/Step.lean ====
section
/-! DEFINITION. One rising edge (spec/00_scope.md R11, 40_sequencer.md R65). -/

namespace Sys2Proof.Machine

/-- One clock step: the host's inputs of this cycle choose one of four arms (R65, R72). -/
def step (s : State) : Host.Outcome State Fault Refusal :=
  match s.arm with
  | .reset => resetArm s.afterHost
  | .start i => exec i s.afterHost
  | .toIdle => toIdleArm s.afterHost
  | .advance => advanceArm s.afterHost

/-- `s` with a command on the port, so that the next step accepts and runs it (log 3, log 12). The bits are numbered
as spec/opcode_table.json numbers them; a command is one word of ten bits. -/
def State.withFetchWord (s : State) (_nbits w : Nat) : State := s.presentNext w

end Sys2Proof.Machine
end

