-- ==== Sys2Proof/Machine/Wave.lean ====
section
/-! DEFINITION. Waves and traces (spec/00_scope.md R12), ways of reading a trace (95_test_vectors.md), and the reference
player: a block that holds its command as a list of levels still to come (10_state.md R17). -/

namespace Sys2Proof.Machine

/-- The bits of a byte in the order they are sent: `v[7], v[6], ..., v[0]` (20_memory.md R38). -/
def bitsOf (v : Byte) : List Bool := (List.range 8).map fun i => v.getLsbD (7 - i)

/-- The bits a command puts on the line, in order. -/
def commandBits : Instr → List Bool
  | .bit b => [b]
  | .byte v => bitsOf v
  | .latch => []
  | .reserved => []

/-- `cell(b) = 1^TH(b) ++ 0^TL(b)` (R12). -/
def cell (p : Profile) (b : Bool) : List Level :=
  List.replicate (highTime p b) true ++ List.replicate (lowTime p b) false

/-- `wave(c)` (R12); the reserved operation has none (R53). -/
def wave (p : Profile) : Instr → List Level
  | .bit b => cell p b
  | .byte v => (bitsOf v).flatMap (cell p)
  | .latch => List.replicate p.tres false
  | .reserved => []

/-- `len(c)`, the length of a command in cycles (R12, R153). -/
def commandLen (p : Profile) : Instr → Nat
  | .bit b => highTime p b + lowTime p b
  | .byte v => ((bitsOf v).map fun b => highTime p b + lowTime p b).sum
  | .latch => p.tres
  | .reserved => 0

/-- The length of the longest command under a profile: eight of the longer cell, or the latch hold (R153). -/
def longestCommand (p : Profile) : Nat := max (8 * max (p.t1h + p.t1l) (p.t0h + p.t0l)) p.tres

/-- `cmd_ready` during a command of `n` cycles: 0 until the last cycle, 1 in it (R71). -/
def readyWave (n : Nat) : List Bool := List.replicate (n - 1) false ++ [true]

/-- How many times a trace rises from 0 to 1. -/
def risingEdges : List Level → Nat
  | a :: b :: rest => (if !a && b then 1 else 0) + risingEdges (b :: rest)
  | [_] => 0
  | [] => 0

/-- How many times a trace falls from 1 to 0. -/
def fallingEdges : List Level → Nat
  | a :: b :: rest => (if a && !b then 1 else 0) + fallingEdges (b :: rest)
  | [_] => 0
  | [] => 0

/-- The lengths of the maximal runs of 1s of a trace, in order, `n` ones standing before it. -/
def pulsesAfter : Nat → List Level → List Nat
  | n, true :: rest => pulsesAfter (n + 1) rest
  | 0, false :: rest => pulsesAfter 0 rest
  | n + 1, false :: rest => (n + 1) :: pulsesAfter 0 rest
  | 0, [] => []
  | n + 1, [] => [n + 1]

/-- The lengths of the maximal runs of 1s of a trace, in order. -/
def pulses (trace : List Level) : List Nat := pulsesAfter 0 trace

/-- `bits(trace)` (95_test_vectors.md, Conventions), one entry for each pulse: one of `T1H` cycles reads 1, one of `T0H`
cycles 0, any other is undefined (the inner `none`). Where the profile breaks constraint 2 of R7, `T0H >= T1H`, the
helper as a whole is undefined (the outer `none`; R7, U6, D24; log 22). -/
def readBits (p : Profile) (trace : List Level) : Option (List (Option Bool)) :=
  if p.ordered then
    some ((pulses trace).map fun n => if n = p.t1h then some true else if n = p.t0h then some false else none)
  else none

/-- The reference player's outputs: it holds the levels still to come, the current cycle's first. -/
def playerOutputs (pending : List Level) : Outputs :=
  { cmdReady := decide (pending.length ≤ 1), busy := decide (pending ≠ []), dout := pending.headD false }

/-- One edge of the reference player: reset empties it, an accepted command replaces the list with its wave (R64, R71), any
other edge drops the current level. `none` where the reserved operation is accepted (R53). -/
def playerStep (p : Profile) (pending : List Level) (i : Inputs) : Option (List Level) :=
  if i.rst then some []
  else if i.valid && decide (pending.length ≤ 1) then
    (if decode i.word = .reserved then none else some (wave p (decode i.word)))
  else some pending.tail

/-- The reference player's outputs, cycle by cycle, for a sequence of inputs. -/
def playerTrace (p : Profile) : List Level → List Inputs → List Outputs
  | _, [] => []
  | pending, i :: rest =>
    playerOutputs pending ::
      match playerStep p pending i with
      | some pending' => playerTrace p pending' rest
      | none => []

end Sys2Proof.Machine
end

