-- ==== Sys2Proof/Safety.lean ====
section
/-! DEFINITION. The terms claims are stated in: runs and what is seen in them (spec/00_scope.md R5, R11, R12), the
invariants of 10_state.md R29, a well-behaved host (70_reset_and_hazards.md R142, R146, R149, R150), and the end of a
run (R143). -/

namespace Sys2Proof.Machine

/-- `k` steps, stopping at a refusal. -/
def run : Nat → State → Host.Outcome State Fault Refusal
  | 0, s => .next s
  | k + 1, s =>
    match step s with
    | .next s' => run k s'
    | .fault r => .fault r
    | .refused r => .refused r

/-- What `f` sees in cycles 0 to `k - 1` of the run from `s`; the list is shorter where the run stops before. -/
def observe {α : Type} (f : State → α) : Nat → State → List α
  | 0, _ => []
  | k + 1, s =>
    f s ::
      match step s with
      | .next s' => observe f k s'
      | .fault _ => []
      | .refused _ => []

/-- The line trace of the first `k` cycles, `dout(0) .. dout(k - 1)` (R5). -/
def lineTrace (k : Nat) (s : State) : List Level := observe (fun t => t.regs.dout) k s

/-- `cmd_ready` in the first `k` cycles. -/
def readyTrace (k : Nat) (s : State) : List Bool := observe (fun t => t.regs.cmdReady) k s

/-- `rst = 0` in each of the first `k` cycles the run from `s` has. -/
def rstLow (k : Nat) (s : State) : Bool := (observe (fun t => t.inputs.rst) k s).all (!·)

/-- The block starts in the state after a reset edge (R31), with any profile, Strand and script. -/
def State.afterReset (s : State) : Bool := decide (s.regs = Registers.reset)

/-- Invariants 2 to 5 of R29: the bounds of `cnt` in each phase. -/
abbrev cntInRange (p : Profile) (r : Registers) : Prop :=
  (r.phase = .idle → r.cnt = 0) ∧
  (r.phase = .high → 1 ≤ r.cnt ∧ r.cnt ≤ highTime p r.cur) ∧
  (r.phase = .low → 1 ≤ r.cnt ∧ r.cnt ≤ lowTime p r.cur) ∧
  (r.phase = .reset → 1 ≤ r.cnt ∧ r.cnt ≤ p.tres)

/-- The invariants of R29: 1, then 2 to 5, then 6, then 7 (whose `0 <= rem <= 7` the type `Fin 8` carries). -/
abbrev Invariants (p : Profile) (r : Registers) : Prop :=
  (r.dout = true ↔ r.phase = .high) ∧
  cntInRange p r ∧
  ((r.phase = .idle ∨ r.phase = .reset) → r.rem = 0) ∧
  (∀ k : Fin 8, k.val < 8 - r.rem.val → r.sh.getLsbD k.val = false)

/-- The invariants hold of a machine's registers under its own profile. -/
abbrev State.Inv (s : State) : Prop := Invariants s.profile s.regs

/-- In this cycle the host keeps its duties: no reserved word is accepted (R149) and no reset while busy (R150). -/
def State.hostKeepsDuties (s : State) : Bool :=
  decide (s.accepted ≠ some .reserved) && !(s.inputs.rst && s.regs.busy)

/-- The host keeps its duties in each of the first `k` cycles: a safe run. -/
def safeRun (k : Nat) (s : State) : Bool := (observe State.hostKeepsDuties k s).all id

/-- What R143 asks of the cycle in which a run ends: every command has been accepted, `rst = 0`, `phase = IDLE`. A gap or
a later reset of the host's list may still be outstanding (log 23). -/
def State.ended (s : State) : Bool :=
  s.commandsAllAccepted && !s.inputs.rst && decide (s.regs.phase = .idle)

/-- The run from `s` has ended in cycle `n`: the first such cycle (R143). -/
abbrev State.runEndsIn (s : State) (n : Nat) : Prop :=
  (∃ t, run n s = .next t ∧ t.ended = true) ∧ ∀ j u, j < n → run j s = .next u → u.ended = false

/-- A list of commands, each with the idle gap that the host lets pass before it (R56, R71). -/
abbrev PacedCommands := List (Nat × Instr)

/-- The host's script for paced commands: `IDLE g`, then the command, held until it is accepted (R56). -/
def PacedCommands.script (cs : PacedCommands) : List HostAction :=
  cs.flatMap fun gc => [.port (.idle gc.1), .port (.present (encode gc.2))]

/-- `0^g ++ wave(c)` for each command in turn (R71). -/
def PacedCommands.wave (p : Profile) (cs : PacedCommands) : List Level :=
  cs.flatMap fun gc => List.replicate gc.1 false ++ Machine.wave p gc.2

/-- Every command is one the host may present (R149). -/
def PacedCommands.wf (cs : PacedCommands) : Bool := cs.all fun gc => gc.2.wf

/-- A frame is well paced when every gap between its commands is at most the tolerance (R146); the gap before its first
command is not inside it. -/
def PacedCommands.wellPaced (tol : Nat) (cs : PacedCommands) : Bool := cs.tail.all fun gc => decide (gc.1 ≤ tol)

end Sys2Proof.Machine
end

