-- ==== Sys2Proof/Certificates/Slice0/Obligations.lean ====
section
/-! DEFINITION. The statements for the provers, from the numbered rules of spec/. A cycle is a state of a run, an edge
is a `step`; `s.inputs` is what stands on the ports in the cycle, `s.accepted` the command its edge takes. -/

open Sys2Proof Sys2Proof.Machine

/-! ### Encoding -/

/-- R48, R55: the decoder on the four values of the `op` field, with the operand bits it takes, and the match and mask
table. -/
def Obligations.DecoderFollowsTheOpField : Prop :=
  ∀ w : CmdWord,
    (opField w = 0b00#2 → decode w = .bit (w.getLsbD 0)) ∧
    (opField w = 0b01#2 → decode w = .byte (w.extractLsb' 0 8)) ∧
    (opField w = 0b10#2 → decode w = .latch) ∧
    (opField w = 0b11#2 → decode w = .reserved) ∧
    ((decode w).mnemonic = "BIT" ↔ w &&& 0x300#10 = 0x000#10) ∧
    ((decode w).mnemonic = "BYTE" ↔ w &&& 0x300#10 = 0x100#10) ∧
    ((decode w).mnemonic = "LATCH" ↔ w &&& 0x300#10 = 0x200#10) ∧
    ((decode w).mnemonic = "RESERVED" ↔ w &&& 0x300#10 = 0x300#10)

/-- Words written out from R49 to R51, R54 and the test vectors V1, V2, V4, V6, V9, V14. -/
def Obligations.WordsWrittenOutDecode : Prop :=
  decode 0b0000000000#10 = .bit false ∧ decode 0b0000000001#10 = .bit true ∧
  decode 0b0011111111#10 = .bit true ∧ decode 0b0011111110#10 = .bit false ∧
  decode 0b0110110000#10 = .byte 176#8 ∧ decode 0b0100000001#10 = .byte 1#8 ∧
  decode 0b1000000000#10 = .latch ∧ decode 0b1010101011#10 = .latch ∧
  decode 0b1100000000#10 = .reserved

/-- R54, R55, R56, for `BIT`, `BYTE` and `LATCH`: the words of a command are exactly those that agree with its encoding on
the bits it reads; the encoder writes the ignored bits as zeros, and decoding an encoding gives the command back. R56
gives the reserved operation no word: for it, `encode` answers `0x300`, its match word in R48, which is the model's
inference (DEDUCED, log 9), and what is said is that the reserved words are those of R48's match and mask. -/
def Obligations.DecodeAndEncodeAgree : Prop :=
  ∀ (i : Instr) (w : CmdWord),
    decode (encode i) = i ∧ (decode w = i ↔ w &&& i.readMask = encode i)

/-- The model's own placing of a word (log 12): the next step runs the decoded instruction on the unchanged host. -/
def Obligations.PlacedWordIsTheNextCommand : Prop :=
  ∀ (s : State) (nbits w : Nat) (i : Instr), decodeTableWord nbits w = some i →
    step (s.withFetchWord nbits w) = exec i { s with regs := (s.withFetchWord nbits w).regs } ∧
    (s.regs.done = true → (s.withFetchWord nbits w).regs = s.regs)

/-! ### The signals -/

/-- R63, R22, R23: `done`, `cmd_ready` and `busy` as functions of the registers. -/
def Obligations.ReadyAndBusySignals : Prop :=
  ∀ r : Registers,
    (r.done = true ↔
      r.phase = .idle ∨ (r.phase = .low ∧ r.cnt = 1 ∧ r.rem = 0) ∨ (r.phase = .reset ∧ r.cnt = 1)) ∧
    r.cmdReady = r.done ∧ (r.busy = true ↔ r.phase ≠ .idle)

/-- R18: the phases' codes and the line in each. -/
def Obligations.PhaseCodesAndLevels : Prop :=
  Phase.code .idle = 0b00#2 ∧ Phase.code .high = 0b01#2 ∧ Phase.code .low = 0b10#2 ∧ Phase.code .reset = 0b11#2 ∧
  (∀ ph, Phase.ofCode ph.code = ph) ∧ ∀ ph : Phase, ph.level = true ↔ ph = .high

/-! ### Reset -/

/-- R31, R30: a reset edge, from any state and whatever stands on the command port. -/
def Obligations.ResetEdgeGivesTheResetState : Prop :=
  ∀ s : State, s.inputs.rst = true →
    ∃ t, step s = .next t ∧
      t.regs.phase = .idle ∧ t.regs.phase.code = 0b00#2 ∧ t.regs.cnt = 0 ∧ t.regs.cur = false ∧ t.regs.sh = 0x00#8 ∧
      t.regs.rem = 0 ∧ t.regs.dout = false ∧
      t.regs.cmdReady = true ∧ t.regs.busy = false ∧
      t.profile = s.profile ∧ t.strand = s.nextStrand ∧ t.script = s.nextScript

/-- R141, R102: `begin()` at power-on is one reset edge, after which the machine is `State.reset` (whose Strand and
empty script are the model's choice, log 8 and log 3). -/
def Obligations.BeginFromPowerOnGivesReset : Prop :=
  step { State.powerOn with script := [.call .beginOutput] } = .next State.reset

/-- R7, U5, U6: building with five numbers is refused exactly when one of them is zero (constraint 1). Constraint 2 is no
ground for refusing to build: it is the separate check `ordered`, true exactly where `T0H < T1H`, and the decoding helper
is undefined exactly where it is false. That the profile of `State.reset` meets constraint 2 is the model's choice
(DESIGN CHOICE, log 1), no part of R7. -/
def Obligations.ProfileConstraintsAreChecked : Prop :=
  State.reset.profile.ordered = true ∧
  (∀ t1h t1l t0h t0l tres : Nat,
    (Profile.build t1h t1l t0h t0l tres = none ↔ t1h = 0 ∨ t1l = 0 ∨ t0h = 0 ∨ t0l = 0 ∨ tres = 0) ∧
    ∀ p, Profile.build t1h t1l t0h t0l tres = some p →
      p.t1h = t1h ∧ p.t1l = t1l ∧ p.t0h = t0h ∧ p.t0l = t0l ∧ p.tres = tres) ∧
  ∀ p : Profile, (p.ordered = true ↔ p.t0h < p.t1h) ∧
    ∀ trace : List Level, readBits p trace = none ↔ p.t1h ≤ p.t0h

/-- R137: reset held over any number of edges, from any state, with anything on the command port meanwhile; then a command
presented in the first cycle with `rst = 0`. -/
def Obligations.HeldResetThenCommand : Prop :=
  ∀ (s : State) (held : List Inputs) (c : Instr), held ≠ [] → (∀ i ∈ held, i.rst = true) → c.wf = true →
    s.script = held.map (fun i => .port (.raw i)) ++ [.port (.present (encode c))] →
    (∃ t, run held.length s = .next t ∧ t.regs = Registers.reset ∧ t.regs.cmdReady = true ∧ t.accepted = some c) ∧
    lineTrace (held.length + 1 + commandLen s.profile c) s =
      s.regs.dout :: List.replicate held.length false ++ wave s.profile c

/-! ### One step -/

/-- R65, with R64's decoding: the four arms in their order of priority, and `dout` in every arm. -/
def Obligations.StepPerformsOneOfFourArms : Prop :=
  ∀ s : State,
    (s.inputs.rst = true → step s = .next { s.afterHost with regs := Registers.reset }) ∧
    (s.inputs.rst = false → s.regs.done = true → s.inputs.valid = true →
      step s = exec (decode (s.inputs.op ++ s.inputs.data)) s.afterHost) ∧
    (s.inputs.rst = false → s.regs.done = true → s.inputs.valid = false →
      step s = .next { s.afterHost with regs := { s.regs with phase := .idle, cnt := 0, dout := false } }) ∧
    (s.inputs.rst = false → s.regs.done = false → step s = advanceArm s.afterHost) ∧
    ∀ t, step s = .next t → (t.regs.dout = true ↔ t.regs.phase = .high)

/-- R64: when a command is accepted and which; in any cycle in which none is, two machines with the same block go the
same way whatever stands on their command ports, and after the edge nothing in the block tells which word stood there. -/
def Obligations.UnacceptedWordsChangeNothing : Prop :=
  (∀ (s : State) (i : Instr), s.accepted = some i ↔
    s.inputs.rst = false ∧ s.inputs.valid = true ∧ s.regs.done = true ∧ decode (s.inputs.op ++ s.inputs.data) = i) ∧
  ∀ s u : State, s.regs = u.regs → s.profile = u.profile → s.inputs.rst = u.inputs.rst →
    s.accepted = none → u.accepted = none →
    ∀ t, step s = .next t → ∃ v, step u = .next v ∧ v.regs = t.regs ∧ v.profile = t.profile

/-- R53: the reserved operation is refused exactly when it is accepted; anywhere else it is not read. -/
def Obligations.ReservedOperationIsRefused : Prop :=
  (∀ s : State, exec .reserved s = .refused .reservedOp) ∧
  ∀ s : State, step s = .refused .reservedOp ↔
    s.inputs.rst = false ∧ s.inputs.valid = true ∧ s.regs.cmdReady = true ∧ s.inputs.op = 0b11#2

/-- R66: the count-down. -/
def Obligations.CountDownInsideAPhase : Prop :=
  (∀ s : State, s.inputs.rst = false → s.regs.done = false → 1 < s.regs.cnt →
    step s = .next { s.afterHost with
      regs := { s.regs with cnt := s.regs.cnt - 1, dout := s.regs.phase.level } }) ∧
  ∀ r : Registers, r.phase = .idle → r.done = true

/-- R67, R75: the end of a high phase, and of a low phase that another bit of the byte follows; the two other phases that
end at `cnt = 1` are `done`. The line falls at the edge that ends a high phase. -/
def Obligations.PhaseEndBeginsTheNextPhase : Prop :=
  (∀ s : State, s.inputs.rst = false → s.regs.phase = .high → s.regs.cnt = 1 →
    step s = .next { s.afterHost with
      regs := { s.regs with phase := .low, cnt := lowTime s.profile s.regs.cur, dout := false } }) ∧
  (∀ s : State, s.inputs.rst = false → s.regs.phase = .low → s.regs.cnt = 1 → s.regs.rem ≠ 0 →
    ∃ t, step s = .next t ∧ t.regs.cur = s.regs.sh.getLsbD 7 ∧ t.regs.sh = s.regs.sh <<< 1 ∧
      t.regs.rem.val = s.regs.rem.val - 1 ∧ t.regs.phase = .high ∧
      t.regs.cnt = highTime s.profile (s.regs.sh.getLsbD 7) ∧ t.regs.dout = true ∧
      t.profile = s.profile ∧ t.strand = s.nextStrand ∧ t.script = s.nextScript) ∧
  ∀ r : Registers, r.done = false → r.cnt = 1 → r.phase = .high ∨ (r.phase = .low ∧ r.rem ≠ 0)

/-- R20, R84: the serializer's registers after `k` bit boundaries of `BYTE v`. -/
def Obligations.SerializerAfterKBoundaries : Prop :=
  ∀ (v : Byte) (r : Registers) (k : Nat), k ≤ 7 →
    (Nat.iterate nextBit k (loadByte v r)).cur = v.getLsbD (7 - k) ∧
    (Nat.iterate nextBit k (loadByte v r)).sh = v <<< (k + 1) ∧
    (Nat.iterate nextBit k (loadByte v r)).rem.val = 7 - k

/-- R68: to idle, and staying there. -/
def Obligations.NoCommandGoesToIdle : Prop :=
  ∀ s : State, s.inputs.rst = false → s.regs.done = true → s.inputs.valid = false →
    step s = .next { s.afterHost with regs := { s.regs with phase := .idle, cnt := 0, dout := false } } ∧
    (s.Inv → s.regs.phase = .idle → step s = .next s.afterHost)

/-- R69: the level of the line goes with the phase entered, so the line rises exactly at an edge that enters `HIGH` and
falls exactly at one that leaves it. -/
def Obligations.LineFollowsThePhaseEntered : Prop :=
  ∀ s t : State, step s = .next t →
    (t.regs.dout = true ↔ t.regs.phase = .high) ∧
    ((s.regs.dout = true ↔ s.regs.phase = .high) →
      ((s.regs.dout = false ∧ t.regs.dout = true ↔ s.regs.phase ≠ .high ∧ t.regs.phase = .high) ∧
       (s.regs.dout = true ∧ t.regs.dout = false ↔ s.regs.phase = .high ∧ t.regs.phase ≠ .high)))

/-- R70: the transition table: every step is one of its rows, and with `rst = 0` `HIGH` is left for `LOW` only. -/
def Obligations.TransitionTableIsComplete : Prop :=
  (∀ s t : State, s.inputs.rst = false → step s = .next t →
    (let taken : Prop :=
       (∃ c b rest, s.accepted = some c ∧ commandBits c = b :: rest ∧
         t.regs.phase = .high ∧ t.regs.cnt = highTime s.profile b) ∨
       (s.accepted = some .latch ∧ t.regs.phase = .reset ∧ t.regs.cnt = s.profile.tres) ∨
       (s.accepted = none ∧ t.regs.phase = .idle ∧ t.regs.cnt = 0)
     match s.regs.phase with
     | .idle => taken
     | .high =>
       (1 < s.regs.cnt ∧ t.regs.phase = .high ∧ t.regs.cnt = s.regs.cnt - 1) ∨
       (s.regs.cnt = 1 ∧ t.regs.phase = .low ∧ t.regs.cnt = lowTime s.profile s.regs.cur)
     | .low =>
       (1 < s.regs.cnt ∧ t.regs.phase = .low ∧ t.regs.cnt = s.regs.cnt - 1) ∨
       (s.regs.cnt = 1 ∧ s.regs.rem ≠ 0 ∧ t.regs.phase = .high ∧
         t.regs.cnt = highTime s.profile (s.regs.sh.getLsbD 7)) ∨
       (s.regs.cnt = 1 ∧ s.regs.rem = 0 ∧ taken)
     | .reset =>
       (1 < s.regs.cnt ∧ t.regs.phase = .reset ∧ t.regs.cnt = s.regs.cnt - 1) ∨
       (s.regs.cnt = 1 ∧ taken)) ∧
    (s.regs.phase = .high → t.regs.phase = .high ∨ t.regs.phase = .low)) ∧
  ∀ s t : State, s.inputs.rst = true → step s = .next t → t.regs.phase = .idle ∧ t.regs.cnt = 0

/-! ### The commands -/

/-- The start arm of R73, for every bit and every state: the whole next state. -/
def Obligations.BitStartsItsCell : Prop :=
  ∀ (b : Bool) (s : State),
    exec (.bit b) s = .next { s with
      regs := { phase := .high, cnt := if b then s.profile.t1h else s.profile.t0h, cur := b, sh := 0x00#8, rem := 0,
                dout := true } }

/-- The start arm of R83, for every byte and every state: the whole next state. -/
def Obligations.ByteStartsItsFirstCell : Prop :=
  ∀ (v : Byte) (s : State),
    exec (.byte v) s = .next { s with
      regs := { phase := .high, cnt := if v.getLsbD 7 then s.profile.t1h else s.profile.t0h, cur := v.getLsbD 7,
                sh := v.extractLsb' 0 7 ++ 0#1, rem := 7, dout := true } }

/-- The start arm of R91, for every state: the whole next state, `cur`, `sh` and `rem` kept. -/
def Obligations.LatchStartsTheHold : Prop :=
  ∀ s : State,
    exec .latch s = .next { s with
      regs := { phase := .reset, cnt := s.profile.tres, cur := s.regs.cur, sh := s.regs.sh, rem := s.regs.rem,
                dout := false } }

/-- The frame of the commands: `BIT` and `BYTE` write all six registers, `LATCH` three of them; none writes the profile
(R6, R26) or the host's Strand and script (R33). -/
def Obligations.CommandsChangeOnlyRegisters : Prop :=
  ∀ (i : Instr) (s t : State), exec i s = .next t →
    t.profile = s.profile ∧ t.strand = s.strand ∧ t.script = s.script ∧
    (i = .latch → t.regs.cur = s.regs.cur ∧ t.regs.sh = s.regs.sh ∧ t.regs.rem = s.regs.rem) ∧
    (i = .latch ∨ ∃ b rest, commandBits i = b :: rest ∧ t.regs.cur = b ∧ t.regs.rem.val = rest.length)

/-- R71, points 1, 2 and 4, for every command: from the accepting cycle, the levels of its wave, `cmd_ready` 0 until its
last cycle and 1 in it, and the block ready after `len(c)` edges. -/
def Obligations.AcceptedCommandPlaysItsWave : Prop :=
  ∀ (s : State) (c : Instr), s.accepted = some c → c ≠ .reserved → rstLow (commandLen s.profile c) s = true →
    lineTrace (commandLen s.profile c + 1) s = s.regs.dout :: wave s.profile c ∧
    readyTrace (commandLen s.profile c + 1) s = true :: readyWave (commandLen s.profile c) ∧
    ∃ t, run (commandLen s.profile c) s = .next t ∧ t.regs.cmdReady = true

/-- R42: a command is atomic: two machines whose blocks are alike accept the same command, and then their lines and their
`cmd_ready` are alike in every cycle of it, whatever each host does on its command port, `rst` apart. -/
def Obligations.CommandCannotBeDisturbed : Prop :=
  ∀ (s u : State) (c : Instr), s.regs = u.regs → s.profile = u.profile → s.accepted = some c → u.accepted = some c →
    c ≠ .reserved → rstLow (commandLen s.profile c) s = true → rstLow (commandLen s.profile c) u = true →
    lineTrace (commandLen s.profile c + 1) s = lineTrace (commandLen s.profile c + 1) u ∧
    readyTrace (commandLen s.profile c + 1) s = readyTrace (commandLen s.profile c + 1) u ∧
    (lineTrace (commandLen s.profile c + 1) s).length = commandLen s.profile c + 1

/-- R77: the wave of `BIT b`, one rise and one fall. -/
def Obligations.BitEmitsOneCell : Prop :=
  ∀ (s : State) (b : Bool), s.Inv → s.accepted = some (.bit b) →
    rstLow (highTime s.profile b + lowTime s.profile b) s = true →
    lineTrace (highTime s.profile b + lowTime s.profile b + 1) s =
      false :: List.replicate (highTime s.profile b) true ++ List.replicate (lowTime s.profile b) false ∧
    risingEdges (lineTrace (highTime s.profile b + lowTime s.profile b + 1) s) = 1 ∧
    fallingEdges (lineTrace (highTime s.profile b + lowTime s.profile b + 1) s) = 1

/-- R86: the wave of `BYTE v`, bit 7 first, with eight rises and eight falls, and its length. -/
def Obligations.ByteEmitsEightCells : Prop :=
  ∀ (s : State) (v : Byte), s.Inv → s.accepted = some (.byte v) →
    rstLow (commandLen s.profile (.byte v)) s = true →
    lineTrace (commandLen s.profile (.byte v) + 1) s =
      false :: (cell s.profile (v.getLsbD 7) ++ cell s.profile (v.getLsbD 6) ++ cell s.profile (v.getLsbD 5) ++
        cell s.profile (v.getLsbD 4) ++ cell s.profile (v.getLsbD 3) ++ cell s.profile (v.getLsbD 2) ++
        cell s.profile (v.getLsbD 1) ++ cell s.profile (v.getLsbD 0)) ∧
    risingEdges (lineTrace (commandLen s.profile (.byte v) + 1) s) = 8 ∧
    fallingEdges (lineTrace (commandLen s.profile (.byte v) + 1) s) = 8 ∧
    (∀ ones : Nat, ones = ((List.range 8).countP fun i => v.getLsbD i) →
      commandLen s.profile (.byte v) =
        ones * (s.profile.t1h + s.profile.t1l) + (8 - ones) * (s.profile.t0h + s.profile.t0l)) ∧
    (v = 0b10110000#8 → bitsOf v = [true, false, true, true, false, false, false, false])

/-- R92: the hold of `LATCH`: phase, line and count in each of its `TRES` cycles, no command accepted before the
last. -/
def Obligations.LatchHoldsForTresCycles : Prop :=
  ∀ s : State, s.accepted = some .latch → rstLow s.profile.tres s = true →
    ∀ k, k < s.profile.tres →
      ∃ t, run (k + 1) s = .next t ∧ t.regs.phase = .reset ∧ t.regs.dout = false ∧
        t.regs.cnt = s.profile.tres - k ∧ (k + 1 < s.profile.tres → t.accepted = none)

/-- R94: the line is low in the accepting cycle and through the hold, and the low run around a latch is
`TL(b_last) + g_before + TRES + g_after`, or without its first term where no bit was sent before. -/
def Obligations.LowRunAroundALatch : Prop :=
  (∀ s : State, s.Inv → s.accepted = some .latch → rstLow (s.profile.tres + 1) s = true →
    lineTrace (s.profile.tres + 1) s = List.replicate (s.profile.tres + 1) false) ∧
  ∀ (s : State) (pre : PacedCommands) (c d : Instr) (g g1 g2 : Nat) (bs ds : List Bool) (b e : Bool),
    s.afterReset = true → pre.wf = true → commandBits c = bs ++ [b] → commandBits d = e :: ds →
    (s.script = PacedCommands.script (pre ++ [(g, c), (g1, .latch), (g2, d)]) →
      lineTrace (1 + (PacedCommands.wave s.profile pre).length + g + commandLen s.profile c + g1 + s.profile.tres + g2 +
          commandLen s.profile d) s =
        false :: PacedCommands.wave s.profile pre ++ List.replicate g false ++ bs.flatMap (cell s.profile) ++
          List.replicate (highTime s.profile b) true ++
          List.replicate (lowTime s.profile b + g1 + s.profile.tres + g2) false ++
          (e :: ds).flatMap (cell s.profile)) ∧
    (s.script = PacedCommands.script [(g1, .latch), (g2, d)] →
      lineTrace (1 + g1 + s.profile.tres + g2 + commandLen s.profile d) s =
        List.replicate (1 + g1 + s.profile.tres + g2) false ++ (e :: ds).flatMap (cell s.profile))

/-- R88: `BYTE v` and the eight `BIT`s of `v`, from the same ready block with an eager host that has nothing more to do:
the same levels, the same end state, and `cmd_ready` as each has it. -/
def Obligations.ByteEqualsEightBits : Prop :=
  ∀ (s u : State) (v : Byte), s.regs = u.regs → s.profile = u.profile → s.strand = u.strand → s.regs.done = true →
    s.script = [.port (.present (encode (.byte v)))] →
    u.script = (bitsOf v).map (fun b => .port (.present (encode (.bit b)))) →
    lineTrace (commandLen s.profile (.byte v) + 1) s = lineTrace (commandLen s.profile (.byte v) + 1) u ∧
    lineTrace (commandLen s.profile (.byte v) + 1) s = s.regs.dout :: wave s.profile (.byte v) ∧
    (∃ t, run (commandLen s.profile (.byte v)) s = .next t ∧ run (commandLen s.profile (.byte v)) u = .next t) ∧
    readyTrace (commandLen s.profile (.byte v) + 1) s = true :: readyWave (commandLen s.profile (.byte v)) ∧
    readyTrace (commandLen s.profile (.byte v) + 1) u =
      true :: (bitsOf v).flatMap fun b => readyWave (highTime s.profile b + lowTime s.profile b)

/-- R95: the idle hold. -/
def Obligations.IdleHoldsTheLineLow : Prop :=
  (∀ s : State, s.Inv → s.regs.phase = .idle → s.regs.dout = false) ∧
  (∀ s t : State, s.regs.phase = .idle → step s = .next t → t.regs.phase ≠ .idle →
    s.inputs.rst = false ∧ ∃ c, s.accepted = some c ∧ c ≠ .reserved) ∧
  ∀ (s : State) (k : Nat), s.Inv → s.regs.phase = .idle → s.script = [] →
    run k s = .next s ∧ lineTrace k s = List.replicate k false

/-! ### Invariants and safety -/

/-- R29 at the reset state, for every profile, and for `State.reset`. -/
def Obligations.ResetMeetsTheInvariants : Prop :=
  (∀ p : Profile, Invariants p Registers.reset) ∧ State.reset.Inv

/-- R29: every step keeps the seven invariants, from every state that meets them, reached or not. -/
def Obligations.StepKeepsTheInvariants : Prop :=
  ∀ s t : State, s.Inv → step s = .next t → t.Inv

/-- R29: every state reached from the reset state by any number of steps, whatever the host does, meets the invariants. -/
def Obligations.ReachableStatesMeetTheInvariants : Prop :=
  ∀ (s t : State) (k : Nat), s.afterReset = true → run k s = .next t →
    (t.regs.dout = true ↔ t.regs.phase = .high) ∧
    (t.regs.phase = .idle → t.regs.cnt = 0) ∧
    (t.regs.phase = .high → 1 ≤ t.regs.cnt ∧ t.regs.cnt ≤ highTime t.profile t.regs.cur) ∧
    (t.regs.phase = .low → 1 ≤ t.regs.cnt ∧ t.regs.cnt ≤ lowTime t.profile t.regs.cur) ∧
    (t.regs.phase = .reset → 1 ≤ t.regs.cnt ∧ t.regs.cnt ≤ t.profile.tres) ∧
    (t.regs.phase = .idle ∨ t.regs.phase = .reset → t.regs.rem = 0) ∧
    t.regs.rem.val ≤ 7 ∧ (∀ k, k < 8 - t.regs.rem.val → t.regs.sh.getLsbD k = false) ∧
    (t.regs.rem = 0 → t.regs.sh = 0x00#8)

/-- R8, R62: `CNT_W` is the least width that holds every load value, and `cnt` fits it in every state that meets the
invariants. -/
def Obligations.CounterFitsItsWidth : Prop :=
  ∀ p : Profile,
    (∀ w, cntWidth p ≤ w ↔ p.t1h < 2 ^ w ∧ p.t1l < 2 ^ w ∧ p.t0h < 2 ^ w ∧ p.t0l < 2 ^ w ∧ p.tres < 2 ^ w) ∧
    ∀ r : Registers, Invariants p r → r.cnt < 2 ^ cntWidth p

/-- R124, R65: from a state that meets the invariants a step is a next state or the refusal of an accepted reserved word,
nothing else. -/
def Obligations.OnlyTheReservedWordStopsAStep : Prop :=
  ∀ s : State, s.Inv →
    (∃ t, step s = .next t) ∨ (step s = .refused .reservedOp ∧ s.accepted = some .reserved)

/-- R142: while the host keeps its duties a run never stops, and its block meets the invariants at the end. -/
def Obligations.DutifulHostNeverStopsTheRun : Prop :=
  ∀ (s : State) (k : Nat), s.Inv → safeRun k s = true → ∃ t, run k s = .next t ∧ t.Inv

/-- R6, R26, R138: no run changes the profile, and a reset edge leaves the Strand to the host's own calls. -/
def Obligations.ProfileNeverChanges : Prop :=
  (∀ (s t : State) (k : Nat), run k s = .next t → t.profile = s.profile) ∧
  ∀ s t : State, s.inputs.rst = true → step s = .next t → t.strand = s.nextStrand

/-- R124, R142: no state that meets the invariants keeps the host waiting for ever: with `rst = 0`, `cmd_ready = 1` again
in fewer edges than the longest command has cycles. `longestCommand` is the length of some command the host may present,
and no command is longer (R153). -/
def Obligations.BlockBecomesReady : Prop :=
  (∀ p : Profile, (∀ c : Instr, commandLen p c ≤ longestCommand p) ∧
    ∃ c : Instr, c.wf = true ∧ commandLen p c = longestCommand p) ∧
  ∀ s : State, s.Inv → rstLow (longestCommand s.profile) s = true →
    ∃ k t, k < longestCommand s.profile ∧ run k s = .next t ∧ t.regs.cmdReady = true

/-! ### Whole traces -/

/-- R71, the trace of any list of commands with any idle gaps, from the reset state, under any profile. -/
def Obligations.TraceOfPacedCommands : Prop :=
  ∀ (s : State) (cs : PacedCommands) (k : Nat), s.afterReset = true → cs.wf = true → s.script = cs.script →
    lineTrace (1 + (cs.map fun gc => gc.1 + commandLen s.profile gc.2).sum + k) s =
      false :: PacedCommands.wave s.profile cs ++ List.replicate k false

/-- R146: in a frame with no gap between its commands, however late its first command, every cell and hold follows the one
before it at once, so every low phase is exactly its constant. -/
def Obligations.WellPacedFrameOnTheLine : Prop :=
  ∀ (s : State) (g : Nat) (c : Instr) (rest : PacedCommands), s.afterReset = true →
    PacedCommands.wf ((g, c) :: rest) = true → s.script = PacedCommands.script ((g, c) :: rest) →
    PacedCommands.wellPaced Config.gapTolDefault ((g, c) :: rest) = true →
    lineTrace (1 + g + commandLen s.profile c + (rest.map fun gc => commandLen s.profile gc.2).sum) s =
      List.replicate (g + 1) false ++ wave s.profile c ++ rest.flatMap fun gc => wave s.profile gc.2

/-- R17, R64, R71: at its ports, and for every host, the six-register block cannot be told from a player that holds the
levels still to come as a list: the same `cmd_ready`, `busy` and `dout` in every cycle. -/
def Obligations.PortsMatchTheReferencePlayer : Prop :=
  ∀ (s : State) (k : Nat), s.afterReset = true →
    observe (fun t => t.regs.outputs) k s = playerTrace s.profile [] (observe State.inputs k s)

/-- R44, R38 and the reading of a trace in 95_test_vectors.md: under a profile in order, whatever a host that keeps its
duties does, once the block is idle the widths of the pulses on the line spell exactly the bits of the commands
accepted, in the order they were accepted; none is cut, merged, reordered or dropped. -/
def Obligations.LineSpellsTheAcceptedCommands : Prop :=
  ∀ (s t : State) (k : Nat), s.afterReset = true → s.profile.ordered = true → safeRun k s = true →
    run k s = .next t → t.regs.phase = .idle →
    readBits s.profile (lineTrace k s) =
      some ((((observe State.accepted k s).filterMap id).flatMap commandBits).map some)

/-! ### The host's pixel layer -/

/-- R103: the wire order of the three colour bytes, and that `send_pixel` sends its scaled bytes in that order and
nothing else. -/
def Obligations.PixelBytesInWireOrder : Prop :=
  ∀ (st : Strand) (c : Colour),
    (st.order = .rgb → wireOrder st.order c = [c.r, c.g, c.b]) ∧
    (st.order = .grb → wireOrder st.order c = [c.g, c.r, c.b]) ∧
    (st.order = .brg → wireOrder st.order c = [c.b, c.r, c.g]) ∧
    HostCall.actions st (.sendPixel c) =
      (wireOrder st.order ⟨scale st.bri c.r, scale st.bri c.g, scale st.bri c.b⟩).map
        fun v => .present (0b01#2 ++ v)

/-- R108: the scaling of a channel. -/
def Obligations.ScaleTakesTheHighByte : Prop :=
  ∀ bri c : Byte,
    (bri = 0#8 → scale bri c = c) ∧
    (bri ≠ 0#8 → (scale bri c).toNat = c.toNat * bri.toNat / 256 ∧ (scale bri c).toNat ≤ 254) ∧
    c.toNat * bri.toNat ≤ 65025

/-- R109, R110: the stored brightness, its effect at the levels R109 tabulates, and reading it back. -/
def Obligations.BrightnessIsStoredBiased : Prop :=
  (∀ (st : Strand) (level : Byte),
    ((HostCall.setBrightness level).strandAfter st) =
      { st with bri := ((HostCall.setBrightness level).strandAfter st).bri } ∧
    ((HostCall.setBrightness level).strandAfter st).bri.toNat = (level.toNat + 1) % 256 ∧
    (HostCall.setBrightness level).actions st = [] ∧
    HostCall.result ((HostCall.setBrightness level).strandAfter st) .getBrightness = .byte level ∧
    (HostCall.result st .getBrightness = .byte level ↔ level.toNat = (st.bri.toNat + 255) % 256)) ∧
  (∀ c : Byte, scale (biasBrightness 255#8) c = c ∧ scale (biasBrightness 127#8) c = c >>> 1 ∧
    scale (biasBrightness 63#8) c = c >>> 2 ∧ scale (biasBrightness 0#8) c = 0#8 ∧
    (scale (biasBrightness 254#8) c).toNat = c.toNat * 255 / 256 ∧
    (scale (biasBrightness 1#8) c).toNat = c.toNat * 2 / 256) ∧
  scale (biasBrightness 254#8) 255#8 = 254#8 ∧ scale (biasBrightness 254#8) 100#8 = 99#8 ∧
  scale (biasBrightness 1#8) 255#8 = 1#8 ∧ scale (biasBrightness 1#8) 100#8 = 0#8 ∧
  ∀ (st : Strand) (n pin flags : Nat) (order : ChannelOrder),
    HostCall.result ((HostCall.construct n pin order flags).strandAfter st) .getBrightness = .byte 255#8

/-- R107, R106: packing, unpacking, and sending a packed colour. -/
def Obligations.PackedColoursRoundTrip : Prop :=
  (∀ c : Colour, unpackColour (packColour c) = c ∧
    (packColour c).toNat = c.r.toNat * 65536 + c.g.toNat * 256 + c.b.toNat) ∧
  (∀ (st : Strand) (c : Colour), HostCall.result st (.packColor c) = .word (packColour c) ∧
    HostCall.actions st (.packColor c) = [] ∧ HostCall.strandAfter st (.packColor c) = st) ∧
  ∀ (st : Strand) (index : Nat) (color : BitVec 32),
    HostCall.actions st (.sendPixelPacked index color) =
      HostCall.actions st
        (.sendPixel ⟨color.extractLsb' 16 8, color.extractLsb' 8 8, color.extractLsb' 0 8⟩) ∧
    HostCall.strandAfter st (.sendPixelPacked index color) = st

/-- R101, R112, R113, and who writes the fields of R100. R100 lets nothing change the pixel count and the channel order of
a Strand: here only `construct` writes them, because the model holds one Strand and `construct` makes that one anew
(DESIGN CHOICE, log 20). Of the stored brightness the writers are `set_brightness` and, with its first value, `construct`
(R101). `set_output_pin` writes `pin`, no other field, and sends nothing (R100 names it as the one writer; the rest is
the model's, DEDUCED, log 16). `clear`, `pixel_count` and `get_brightness` send nothing and change nothing. -/
def Obligations.StrandFieldsAndTheirWriters : Prop :=
  (∀ (st : Strand) (c : HostCall), (∀ n pin order flags, c ≠ .construct n pin order flags) →
    (c.strandAfter st).pixelCount = st.pixelCount ∧ (c.strandAfter st).order = st.order ∧
    ((∀ level, c ≠ .setBrightness level) → (c.strandAfter st).bri = st.bri) ∧
    ((∀ pin, c ≠ .setOutputPin pin) → (c.strandAfter st).pin = st.pin)) ∧
  (∀ (st : Strand) (n pin flags : Nat) (order : ChannelOrder),
    (HostCall.construct n pin order flags).strandAfter st =
      { pixelCount := n, pin := pin, order := order, bri := 0#8 } ∧
    (HostCall.construct n pin order flags).actions st = []) ∧
  (∀ (st : Strand) (pin : Nat),
    (HostCall.setOutputPin pin).strandAfter st =
      { pixelCount := st.pixelCount, pin := pin, order := st.order, bri := st.bri } ∧
    (HostCall.setOutputPin pin).actions st = []) ∧
  ∀ st : Strand,
    HostCall.clear.actions st = [] ∧ HostCall.clear.strandAfter st = st ∧
    HostCall.pixelCount.actions st = [] ∧ HostCall.pixelCount.strandAfter st = st ∧
    HostCall.pixelCount.result st = .count st.pixelCount ∧
    HostCall.getBrightness.actions st = [] ∧ HostCall.getBrightness.strandAfter st = st

/-- R111: a new brightness scales only the pixels sent after it; with the levels of SN's property 6 the same pixel is
sent as 100 and as 0. -/
def Obligations.BrightnessScalesOnlyLaterPixels : Prop :=
  (∀ (s : State) (a b : Byte) (c : Colour), s.afterReset = true →
    s.script = [.call (.setBrightness a), .call (.sendPixel c), .call (.setBrightness b), .call (.sendPixel c)] →
    ∃ k, (observe State.accepted k s).filterMap id =
      ((Strand.pixelBytes { s.strand with bri := a + 1#8 } c) ++
        (Strand.pixelBytes { s.strand with bri := b + 1#8 } c)).map Instr.byte) ∧
  ∀ st : Strand,
    Strand.pixelBytes { st with bri := 255#8 + 1#8 } ⟨100#8, 100#8, 100#8⟩ = [100#8, 100#8, 100#8] ∧
    Strand.pixelBytes { st with bri := 0#8 + 1#8 } ⟨100#8, 100#8, 100#8⟩ = [0#8, 0#8, 0#8]

/-- R115, R105, R153 and the end of a run, R143: a whole frame sent by the driver from the reset state, every byte of every
pixel gapless, then the latch; the run ends in the cycle after the last `RESET` cycle and not before. -/
def Obligations.FrameOnTheLine : Prop :=
  ∀ (s : State) (colours : List Colour) (n k : Nat), s.afterReset = true →
    s.strand.pixelCount = colours.length → s.script = [.call (.sendFrame colours)] →
    n = ((colours.flatMap s.strand.pixelBytes).map fun v => commandLen s.profile (.byte v)).sum →
    lineTrace (1 + n + s.profile.tres + k) s =
      false :: (colours.flatMap s.strand.pixelBytes).flatMap (fun v => wave s.profile (.byte v)) ++
        List.replicate (s.profile.tres + k) false ∧
    s.runEndsIn (1 + n + s.profile.tres)

/-- R57: what each of SN's operations sends, the words as R56 writes them, for every Strand. The table's `set_output_pin` is
outside the block; what the model does there is in `StrandFieldsAndTheirWriters`. When a call's commands reach the port
is in `CallsTakeNoCycleOfTheirOwn`. -/
def Obligations.OperationsExpandToTheirCommands : Prop :=
  (∀ (st : Strand) (b : Bool),
    (HostCall.emitBit b).actions st = [.present (BitVec.ofNat 10 (0x000 + b.toNat))]) ∧
  (∀ (st : Strand) (v : Byte),
    (HostCall.emitByte v).actions st = [.present (BitVec.ofNat 10 (0x100 + v.toNat))]) ∧
  (∀ st : Strand, HostCall.latchFrame.actions st = [.present 0x200#10]) ∧
  (∀ (st : Strand) (c : Colour),
    let word := fun v : Byte => PortAction.present (BitVec.ofNat 10 (0x100 + v.toNat))
    (st.order = .rgb → (HostCall.sendPixel c).actions st =
      [word (scale st.bri c.r), word (scale st.bri c.g), word (scale st.bri c.b)]) ∧
    (st.order = .grb → (HostCall.sendPixel c).actions st =
      [word (scale st.bri c.g), word (scale st.bri c.r), word (scale st.bri c.b)]) ∧
    (st.order = .brg → (HostCall.sendPixel c).actions st =
      [word (scale st.bri c.b), word (scale st.bri c.r), word (scale st.bri c.g)])) ∧
  (∀ (st : Strand) (index : Nat) (color : BitVec 32),
    (HostCall.sendPixelPacked index color).actions st =
      (HostCall.sendPixel ⟨color.extractLsb' 16 8, color.extractLsb' 8 8, color.extractLsb' 0 8⟩).actions st) ∧
  (∀ st : Strand, HostCall.beginOutput.actions st = [.rst]) ∧
  (∀ (st : Strand) (c : HostCall),
    c = .clear ∨ (∃ level, c = .setBrightness level) ∨ c = .getBrightness ∨ (∃ x, c = .packColor x) ∨ c = .pixelCount ∨
      (∃ n pin order flags, c = .construct n pin order flags) →
    c.actions st = [])

/-- A call takes no cycle of its own: that is the model's choice (DESIGN CHOICE, log 17), with the expansions of R57 and the
eager host of R56. A call that sends nothing leaves the cycle to the rest of the script, with the Strand it wrote; of a
call that sends something, the first action is on the ports in the cycle in which the call is reached, and the others
follow it; so a block that is ready accepts (R64) the command of an `emit_bit`, an `emit_byte` or a `show` in that
cycle. -/
def Obligations.CallsTakeNoCycleOfTheirOwn : Prop :=
  ∀ (s : State) (c : HostCall) (rest : List HostAction), s.script = .call c :: rest →
    (c.actions s.strand = [] →
      s.inputs = State.inputs { s with strand := c.strandAfter s.strand, script := rest } ∧
      s.afterHost = State.afterHost { s with strand := c.strandAfter s.strand, script := rest }) ∧
    (∀ a more, c.actions s.strand = a :: more →
      s.inputs = a.inputs ∧
      s.afterHost = { s with
        strand := c.strandAfter s.strand,
        script := (((a.after s.regs.cmdReady).toList ++ more).map .port) ++ rest }) ∧
    (s.regs.done = true →
      (∀ b, c = .emitBit b → s.accepted = some (.bit b)) ∧ (∀ v, c = .emitByte v → s.accepted = some (.byte v)) ∧
      (c = .latchFrame → s.accepted = some .latch))

/-- R56: the words of the commands, and what each line of a program puts on the ports in its cycle and leaves to be done
after it. A presented word stays until the cycle in which `cmd_ready = 1`; `IDLE` counts those cycles only, `WAIT` every
cycle. That a line of length 0 takes no cycle, and the line `raw`, one cycle of any inputs (R142), are in the model's
form of it. -/
def Obligations.ProgramLinesOnThePorts : Prop :=
  (∀ b : Bool, encode (.bit b) = BitVec.ofNat 10 (0x000 + b.toNat)) ∧
  (∀ v : Byte, encode (.byte v) = BitVec.ofNat 10 (0x100 + v.toNat)) ∧ encode .latch = 0x200#10 ∧
  ∀ (s : State) (rest : List HostAction),
    (∀ w, s.script = .port (.present w) :: rest →
      s.inputs.rst = false ∧ s.inputs.valid = true ∧ s.inputs.op ++ s.inputs.data = w ∧
      s.afterHost = { s with script := if s.regs.cmdReady then rest else .port (.present w) :: rest }) ∧
    (∀ k, s.script = .port (.idle (k + 1)) :: rest →
      s.inputs.rst = false ∧ s.inputs.valid = false ∧
      s.afterHost = { s with
        script := if s.regs.cmdReady then (if k = 0 then rest else .port (.idle k) :: rest)
          else .port (.idle (k + 1)) :: rest }) ∧
    (∀ k, s.script = .port (.wait (k + 1)) :: rest →
      s.inputs.rst = false ∧ s.inputs.valid = false ∧
      s.afterHost = { s with script := if k = 0 then rest else .port (.wait k) :: rest }) ∧
    (s.script = .port (.idle 0) :: rest ∨ s.script = .port (.wait 0) :: rest →
      s.inputs = State.inputs { s with script := rest } ∧ s.afterHost = State.afterHost { s with script := rest }) ∧
    (s.script = .port .rst :: rest → s.inputs.rst = true ∧ s.afterHost = { s with script := rest }) ∧
    ∀ i, s.script = .port (.raw i) :: rest → s.inputs = i ∧ s.afterHost = { s with script := rest }

/-- R143: the run of any commands with any gaps, from the reset state, ends in the first idle cycle after the last of
them, whatever gaps still follow in the host's list; in the cycle it ends the block is not busy, the line is low and
`cmd_ready = 1`; and the block's state does not change after it, as long as `rst = 0`. -/
def Obligations.RunEndsAfterTheLastCommand : Prop :=
  (∀ (s : State) (cs : PacedCommands) (gaps : List PortAction), s.afterReset = true → cs ≠ [] → cs.wf = true →
    (∀ a ∈ gaps, ∃ k, a = .idle k ∨ a = .wait k) → s.script = cs.script ++ gaps.map .port →
    s.runEndsIn (1 + (cs.map fun gc => gc.1 + commandLen s.profile gc.2).sum)) ∧
  (∀ s : State, s.Inv → s.ended = true →
    s.regs.busy = false ∧ s.regs.dout = false ∧ s.regs.cmdReady = true ∧ s.accepted = none) ∧
  ∀ (s : State) (k : Nat), s.Inv → s.ended = true → rstLow (k + 1) s = true →
    ∃ t, run k s = .next t ∧ t.regs = s.regs ∧ t.profile = s.profile ∧ t.ended = true
end

