-- ==== Sys2Proof/Laws/State.lean ====
section
/-! SUPPORT. One lemma per field and update of the machine and of its registers, all by rfl. -/

namespace Sys2Proof.Machine

section Registers

variable (r : Registers) (p : Profile) (ph : Phase) (k : Nat) (b : Bool) (v : Byte)

@[simp] theorem enterPhase_phase : (r.enterPhase ph k).phase = ph := rfl
@[simp] theorem enterPhase_cnt : (r.enterPhase ph k).cnt = k := rfl
@[simp] theorem enterPhase_cur : (r.enterPhase ph k).cur = r.cur := rfl
@[simp] theorem enterPhase_sh : (r.enterPhase ph k).sh = r.sh := rfl
@[simp] theorem enterPhase_rem : (r.enterPhase ph k).rem = r.rem := rfl
@[simp] theorem enterPhase_dout : (r.enterPhase ph k).dout = ph.level := rfl

@[simp] theorem loadBit_cur : (loadBit b r).cur = b := rfl
@[simp] theorem loadBit_sh : (loadBit b r).sh = 0#8 := rfl
@[simp] theorem loadBit_rem : (loadBit b r).rem = 0 := rfl

@[simp] theorem loadByte_cur : (loadByte v r).cur = v.getLsbD 7 := rfl
@[simp] theorem loadByte_sh : (loadByte v r).sh = shiftIn0 v := rfl
@[simp] theorem loadByte_rem : (loadByte v r).rem = 7 := rfl

@[simp] theorem nextBit_cur : (nextBit r).cur = r.sh.getLsbD 7 := rfl
@[simp] theorem nextBit_sh : (nextBit r).sh = shiftIn0 r.sh := rfl
@[simp] theorem nextBit_rem : (nextBit r).rem = lowerRem r.rem := rfl

@[simp] theorem beginCell_phase : (r.beginCell p).phase = .high := rfl
@[simp] theorem beginCell_cnt : (r.beginCell p).cnt = highTime p r.cur := rfl
@[simp] theorem beginCell_cur : (r.beginCell p).cur = r.cur := rfl
@[simp] theorem beginCell_sh : (r.beginCell p).sh = r.sh := rfl
@[simp] theorem beginCell_rem : (r.beginCell p).rem = r.rem := rfl
@[simp] theorem beginCell_dout : (r.beginCell p).dout = true := rfl

@[simp] theorem Phase.level_eq_true (ph : Phase) : ph.level = true ↔ ph = .high := by cases ph <;> decide

@[simp] theorem lowerRem_val (m : Fin 8) : (lowerRem m).val = m.val - 1 := rfl

end Registers

section State

variable (s : State) (r : Registers)

@[simp] theorem withRegs_regs : (s.withRegs r).regs = r := rfl
@[simp] theorem withRegs_profile : (s.withRegs r).profile = s.profile := rfl
@[simp] theorem withRegs_strand : (s.withRegs r).strand = s.strand := rfl
@[simp] theorem withRegs_script : (s.withRegs r).script = s.script := rfl

@[simp] theorem afterHost_regs : s.afterHost.regs = s.regs := rfl
@[simp] theorem afterHost_profile : s.afterHost.profile = s.profile := rfl
@[simp] theorem afterHost_strand : s.afterHost.strand = s.nextStrand := rfl
@[simp] theorem afterHost_script : s.afterHost.script = s.nextScript := rfl

end State

end Sys2Proof.Machine
end

