-- ==== Sys2Proof/Laws/HostAgent.lean ====
section
/-! SUPPORT. The host agent: what the first item of a script puts on the ports and leaves to be done, and the fields of a
presented word. -/

namespace Sys2Proof.Machine

theorem opField_append_dataField (w : CmdWord) : wordOf (opField w) (dataField w) = w := by
  apply BitVec.eq_of_getLsbD_eq
  intro i hi
  simp only [wordOf, opField, dataField, BitVec.getLsbD_append, BitVec.getLsbD_extractLsb']
  by_cases h : i < 8
  · simp [h]
  · have h2 : i - 8 < 2 := by omega
    have h3 : 8 + (i - 8) = i := by omega
    simp [h, h2, h3]

@[simp] theorem presenting_word (w : CmdWord) : (Inputs.presenting w).word = w := opField_append_dataField w
@[simp] theorem presenting_rst (w : CmdWord) : (Inputs.presenting w).rst = false := rfl
@[simp] theorem presenting_valid (w : CmdWord) : (Inputs.presenting w).valid = true := rfl
@[simp] theorem nothing_rst : Inputs.nothing.rst = false := rfl
@[simp] theorem nothing_valid : Inputs.nothing.valid = false := rfl

@[simp] theorem settle_nil (st : Strand) : settle st [] = (st, none) := rfl

theorem settle_port {a : PortAction} (st : Strand) (rest : List HostAction) (h : a.takesNoCycle = false) :
    settle st (.port a :: rest) = (st, some (a, rest)) := by
  simp [settle, h]

theorem settle_noCycle {a : PortAction} (st : Strand) (rest : List HostAction) (h : a.takesNoCycle = true) :
    settle st (.port a :: rest) = settle st rest := by
  simp [settle, h]

theorem settle_silent_call {c : HostCall} (st : Strand) (rest : List HostAction) (h : c.actions st = []) :
    settle st (.call c :: rest) = settle (c.strandAfter st) rest := by
  simp [settle, h]

theorem settle_call {c : HostCall} {a : PortAction} {more : List PortAction} (st : Strand) (rest : List HostAction)
    (h : c.actions st = a :: more) :
    settle st (.call c :: rest) = (c.strandAfter st, some (a, more.map .port ++ rest)) := by
  simp [settle, h]

@[simp] theorem expand_nil (st : Strand) : expand st [] = [] := rfl
@[simp] theorem expand_port (st : Strand) (a : PortAction) (rest : List HostAction) :
    expand st (.port a :: rest) = a :: expand st rest := rfl
@[simp] theorem expand_call (st : Strand) (c : HostCall) (rest : List HostAction) :
    expand st (.call c :: rest) = c.actions st ++ expand (c.strandAfter st) rest := rfl

@[simp] theorem expand_ports_append (st : Strand) (acts : List PortAction) (rest : List HostAction) :
    expand st (acts.map .port ++ rest) = acts ++ expand st rest := by
  induction acts with
  | nil => rfl
  | cons a acts ih => simp [ih]

theorem not_presentsWord_of_takesNoCycle {a : PortAction} (h : a.takesNoCycle = true) : a.presentsWord = false := by
  cases a <;> simp_all [PortAction.takesNoCycle, PortAction.presentsWord]

/-- Running a script to its next action skips only actions that take no cycle, and leaves the rest of the expansion. -/
theorem expand_of_settle {st st' : Strand} {script rest : List HostAction} {a : PortAction}
    (h : settle st script = (st', some (a, rest))) :
    ∃ skipped, expand st script = skipped ++ a :: expand st' rest ∧ ∀ x ∈ skipped, x.takesNoCycle = true := by
  induction script generalizing st with
  | nil => simp at h
  | cons x script ih =>
    cases x with
    | port b =>
      by_cases hb : b.takesNoCycle = true
      · obtain ⟨skipped, he, hs⟩ := ih (settle_noCycle st script hb ▸ h)
        exact ⟨b :: skipped, by simp [he], by simpa [hb] using hs⟩
      · rw [settle_port st script (by simpa using hb)] at h
        obtain ⟨rfl, rfl, rfl⟩ : st = st' ∧ b = a ∧ script = rest := by simpa using h
        exact ⟨[], by simp, by simp⟩
    | call c =>
      rcases hc : c.actions st with _ | ⟨b, more⟩
      · obtain ⟨skipped, he, hs⟩ := ih (settle_silent_call st script hc ▸ h)
        exact ⟨skipped, by simp [hc, he], hs⟩
      · rw [settle_call st script hc] at h
        obtain ⟨rfl, rfl, rfl⟩ : c.strandAfter st = st' ∧ b = a ∧ more.map .port ++ script = rest := by simpa using h
        exact ⟨[], by simp [hc], by simp⟩

/-- What is left of an action presents a word only where the action did. -/
theorem presentsWord_of_after {a b : PortAction} {ready : Bool} (h : a.after ready = some b)
    (hb : b.presentsWord = true) : a.presentsWord = true := by
  cases a <;> simp only [PortAction.after] at h
  case present => rfl
  all_goals (first | cases h | (repeat' split at h) <;> cases h <;> cases hb)

/-- A cycle makes no new command: where all have been accepted, all have been after the host's move. -/
theorem commandsAllAccepted_afterHost {s : State} (h : s.commandsAllAccepted = true) :
    s.afterHost.commandsAllAccepted = true := by
  simp only [State.commandsAllAccepted, Bool.not_eq_true', List.any_eq_false] at h ⊢
  rcases hx : settle s.strand s.script with ⟨st, _ | ⟨a, rest⟩⟩
  · simp [State.nextScript, hx]
  · obtain ⟨skipped, he, -⟩ := expand_of_settle hx
    rw [he] at h
    have ha : ¬ a.presentsWord = true := h a (by simp)
    have hr : ∀ x ∈ expand st rest, ¬ x.presentsWord = true := fun x m => h x (by simp [m])
    rcases hy : a.after s.regs.cmdReady with _ | b
    · simpa [State.nextScript, State.nextStrand, hx, hy] using hr
    · have hb : ¬ b.presentsWord = true := fun hb => ha (presentsWord_of_after hy hb)
      simpa [State.nextScript, State.nextStrand, hx, hy] using ⟨by simpa using hb, by simpa using hr⟩

section

variable {s : State} {st : Strand} {a : PortAction} {rest : List HostAction}

theorem nextStrand_of_settle {x : Option (PortAction × List HostAction)}
    (h : settle s.strand s.script = (st, x)) : s.nextStrand = st := by
  simp [State.nextStrand, h]

theorem inputs_of_settle (h : settle s.strand s.script = (st, some (a, rest))) : s.inputs = a.inputs := by
  simp [State.inputs, h]

theorem inputs_of_settled (h : settle s.strand s.script = (st, none)) : s.inputs = Inputs.nothing := by
  simp [State.inputs, h]

theorem nextScript_of_settled (h : settle s.strand s.script = (st, none)) : s.nextScript = [] := by
  simp [State.nextScript, h]

theorem nextScript_of_settle_done (h : settle s.strand s.script = (st, some (a, rest)))
    (ha : a.after s.regs.cmdReady = none) : s.nextScript = rest := by
  simp [State.nextScript, h, ha]

theorem nextScript_of_settle_more {a' : PortAction} (h : settle s.strand s.script = (st, some (a, rest)))
    (ha : a.after s.regs.cmdReady = some a') : s.nextScript = .port a' :: rest := by
  simp [State.nextScript, h, ha]

end

end Sys2Proof.Machine
end

