-- ==== Sys2Proof/Laws/Ops.lean ====
section
/-! SUPPORT. What each shared operation can do, said once: `done`, `advance`, the arms of an edge, the start arms. -/

namespace Sys2Proof.Machine

theorem highTime_pos (p : Profile) (b : Bool) : 1 ≤ highTime p b := by
  cases b
  · exact p.t0h_pos
  · exact p.t1h_pos

theorem lowTime_pos (p : Profile) (b : Bool) : 1 ≤ lowTime p b := by
  cases b
  · exact p.t0l_pos
  · exact p.t1l_pos

/-- `done` is never true in `HIGH` (R63). -/
theorem not_done_of_high {r : Registers} (h : r.phase = .high) : r.done = false := by
  simp [Registers.done, h]

theorem done_of_idle {r : Registers} (h : r.phase = .idle) : r.done = true := by
  simp [Registers.done, h]

theorem done_of_low {r : Registers} (h : r.phase = .low) : r.done = true ↔ r.cnt = 1 ∧ r.rem = 0 := by
  simp [Registers.done, h]

theorem done_of_reset {r : Registers} (h : r.phase = .reset) : r.done = true ↔ r.cnt = 1 := by
  simp [Registers.done, h]

theorem advance_of_lt {r : Registers} (p : Profile) (h : 1 < r.cnt) : r.advance p = some r.countDown := by
  simp [Registers.advance, h]

theorem advance_of_high_end {r : Registers} (p : Profile) (hp : r.phase = .high) (h : r.cnt = 1) :
    r.advance p = some (r.fall p) := by
  simp [Registers.advance, h, hp]

theorem advance_of_low_end {r : Registers} (p : Profile) (hp : r.phase = .low) (h : r.cnt = 1) :
    r.advance p = some (r.nextCell p) := by
  simp [Registers.advance, h, hp]

/-- Everything `advance` can answer. -/
theorem advance_cases {r r' : Registers} {p : Profile} (h : r.advance p = some r') :
    (1 < r.cnt ∧ r' = r.countDown) ∨ (r.cnt = 1 ∧ r.phase = .high ∧ r' = r.fall p) ∨
      (r.cnt = 1 ∧ r.phase = .low ∧ r' = r.nextCell p) := by
  unfold Registers.advance at h
  by_cases h1 : 1 < r.cnt
  · rw [if_pos h1] at h
    exact .inl ⟨h1, (Option.some.inj h).symm⟩
  · rw [if_neg h1] at h
    by_cases h2 : r.cnt = 1
    · rw [if_pos h2] at h
      cases hp : r.phase <;> simp only [hp] at h
      · cases h
      · exact .inr (.inl ⟨h2, rfl, (Option.some.inj h).symm⟩)
      · exact .inr (.inr ⟨h2, rfl, (Option.some.inj h).symm⟩)
      · cases h
    · rw [if_neg h2] at h
      cases h

/-- Where `advance` has no rule to follow, for registers that are not `done`: only at `cnt = 0`. -/
theorem advance_eq_none {r : Registers} {p : Profile} (hd : r.done = false) (h : r.advance p = none) :
    r.cnt = 0 := by
  unfold Registers.advance at h
  by_cases h1 : 1 < r.cnt
  · simp [h1] at h
  · by_cases h2 : r.cnt = 1
    · cases hp : r.phase <;> simp [h2, hp] at h
      · simp [Registers.done, hp] at hd
      · simp [Registers.done, hp, h2] at hd
    · omega

theorem armFor_of_rst {r : Registers} {i : Inputs} (h : i.rst = true) : r.armFor i = .reset := by
  simp [Registers.armFor, h]

theorem armFor_start {r : Registers} {i : Inputs} (hr : i.rst = false) (hd : r.done = true) (hv : i.valid = true) :
    r.armFor i = .start (decode i.word) := by
  simp [Registers.armFor, hr, hd, hv]

theorem armFor_toIdle {r : Registers} {i : Inputs} (hr : i.rst = false) (hd : r.done = true)
    (hv : i.valid = false) : r.armFor i = .toIdle := by
  simp [Registers.armFor, hr, hd, hv]

theorem armFor_advance {r : Registers} {i : Inputs} (hr : i.rst = false) (hd : r.done = false) :
    r.armFor i = .advance := by
  simp [Registers.armFor, hr, hd]

/-- The four arms and when each is taken (R65). -/
theorem armFor_cases (r : Registers) (i : Inputs) :
    (i.rst = true ∧ r.armFor i = .reset) ∨
    (i.rst = false ∧ r.done = true ∧ i.valid = true ∧ r.armFor i = .start (decode i.word)) ∨
    (i.rst = false ∧ r.done = true ∧ i.valid = false ∧ r.armFor i = .toIdle) ∨
    (i.rst = false ∧ r.done = false ∧ r.armFor i = .advance) := by
  cases hr : i.rst
  · cases hd : r.done
    · exact .inr (.inr (.inr ⟨rfl, rfl, armFor_advance hr hd⟩))
    · cases hv : i.valid
      · exact .inr (.inr (.inl ⟨rfl, rfl, rfl, armFor_toIdle hr hd hv⟩))
      · exact .inr (.inl ⟨rfl, rfl, rfl, armFor_start hr hd hv⟩)
  · exact .inl ⟨rfl, armFor_of_rst hr⟩

theorem accepted_eq_some {s : State} {i : Instr} : s.accepted = some i ↔ s.arm = .start i := by
  unfold State.accepted
  cases s.arm <;> simp

/-- The start arms: every next state `exec` can answer. -/
theorem exec_cases {i : Instr} {s t : State} (h : exec i s = .next t) :
    (∃ b, i = .bit b ∧ t = s.withRegs ((loadBit b s.regs).beginCell s.profile)) ∨
    (∃ v, i = .byte v ∧ t = s.withRegs ((loadByte v s.regs).beginCell s.profile)) ∨
    (i = .latch ∧ t = s.withRegs (s.regs.enterPhase .reset s.profile.tres)) := by
  cases i with
  | bit b => exact .inl ⟨b, rfl, (Host.Outcome.next.inj h).symm⟩
  | byte v => exact .inr (.inl ⟨v, rfl, (Host.Outcome.next.inj h).symm⟩)
  | latch => exact .inr (.inr ⟨rfl, (Host.Outcome.next.inj h).symm⟩)
  | reserved => cases h

end Sys2Proof.Machine
end

