-- ==== Sys2Proof/Laws/PerInstr.lean ====
section
/-! SUPPORT. Statements made per instruction: `RowOfTheTable`, the encoding of a command lies in its own row of the opcode
table and in no other (spec/30_encoding.md R48). -/

/-- The rows of R48 that cover the command's encoding are exactly those with its mnemonic. -/
def Sys2Proof.Laws.RowOfTheTable.Statement (i : Sys2Proof.Instr) : Prop :=
  ∀ r ∈ Sys2Proof.opcodeTable, r.covers (Sys2Proof.encode i) = (r.mnemonic == i.mnemonic)

namespace Sys2Proof.Laws.RowOfTheTable

theorem bit (b : Bool) : Statement (.bit b) := by
  unfold Statement
  cases b <;> decide

/-- The two `op` bits of a `BYTE` word do not depend on the operand. -/
theorem byte_masked (v : Byte) : encode (.byte v) &&& 0x300#10 = 0x100#10 := by
  revert v
  decide

theorem byte (v : Byte) : Statement (.byte v) := by
  intro r hr
  simp only [opcodeTable, List.mem_cons, List.not_mem_nil, or_false] at hr
  rcases hr with rfl | rfl | rfl | rfl <;> simp only [OpcodeRow.covers, byte_masked, Instr.mnemonic] <;> decide

theorem latch : Statement .latch := by
  unfold Statement
  decide

theorem reserved : Statement .reserved := by
  unfold Statement
  decide

end Sys2Proof.Laws.RowOfTheTable
end

