-- ==== Sys2Proof/Laws/Step.lean ====
section
/-! SUPPORT. One step: which arm, and what it can answer; runs and what is observed in them, cut in two. -/

namespace Sys2Proof.Machine

theorem step_of_reset {s : State} (h : s.arm = .reset) : step s = .next (s.afterHost.withRegs Registers.reset) := by
  simp only [step, h, resetArm]

theorem step_of_start {s : State} {i : Instr} (h : s.arm = .start i) : step s = exec i s.afterHost := by
  simp only [step, h]

theorem step_of_toIdle {s : State} (h : s.arm = .toIdle) : step s = .next (s.afterHost.withRegs s.regs.toIdle) := by
  simp only [step, h, toIdleArm, afterHost_regs]

theorem step_of_advance {s : State} {r : Registers} (h : s.arm = .advance) (ha : s.regs.advance s.profile = some r) :
    step s = .next (s.afterHost.withRegs r) := by
  simp only [step, h, advanceArm, afterHost_regs, afterHost_profile, ha]

/-- Everything a step that answers a next state can have done; the host has moved in every case. -/
theorem step_cases {s t : State} (h : step s = .next t) :
    t = s.afterHost.withRegs t.regs ∧
    ((s.arm = .reset ∧ t.regs = Registers.reset) ∨
     (∃ i, s.arm = .start i ∧ exec i s.afterHost = .next t) ∨
     (s.arm = .toIdle ∧ t.regs = s.regs.toIdle) ∨
     (s.arm = .advance ∧ s.regs.advance s.profile = some t.regs)) := by
  cases ha : s.arm with
  | reset =>
    rw [step_of_reset ha] at h
    cases h
    exact ⟨rfl, .inl ⟨rfl, rfl⟩⟩
  | start i =>
    rw [step_of_start ha] at h
    refine ⟨?_, .inr (.inl ⟨i, rfl, h⟩)⟩
    obtain ⟨b, -, rfl⟩ | ⟨v, -, rfl⟩ | ⟨-, rfl⟩ := exec_cases h <;> rfl
  | toIdle =>
    rw [step_of_toIdle ha] at h
    cases h
    exact ⟨rfl, .inr (.inr (.inl ⟨rfl, rfl⟩))⟩
  | advance =>
    cases hr : s.regs.advance s.profile with
    | none => simp [step, ha, advanceArm, hr] at h
    | some r =>
      rw [step_of_advance ha hr] at h
      cases h
      exact ⟨rfl, .inr (.inr (.inr ⟨rfl, rfl⟩))⟩

theorem step_profile {s t : State} (h : step s = .next t) : t.profile = s.profile := by
  rw [(step_cases h).1]; rfl

theorem step_strand {s t : State} (h : step s = .next t) : t.strand = s.nextStrand := by
  rw [(step_cases h).1]; rfl

theorem step_script {s t : State} (h : step s = .next t) : t.script = s.nextScript := by
  rw [(step_cases h).1]; rfl

/-! ### Runs -/

theorem run_one_add {s t : State} (k : Nat) (h : step s = .next t) : run (k + 1) s = run k t := by
  simp only [run, h]

theorem run_add {s t : State} (j k : Nat) (h : run j s = .next t) : run (j + k) s = run k t := by
  induction j generalizing s with
  | zero => cases h; simp
  | succ j ih =>
    cases hs : step s with
    | next u =>
      rw [run_one_add j hs] at h
      rw [Nat.succ_add, run_one_add _ hs]
      exact ih h
    | fault r => simp [run, hs] at h
    | refused r => simp [run, hs] at h

theorem observe_one_add {α : Type} (f : State → α) {s t : State} (k : Nat) (h : step s = .next t) :
    observe f (k + 1) s = f s :: observe f k t := by
  simp only [observe, h]

theorem observe_add {α : Type} (f : State → α) {s t : State} (j k : Nat) (h : run j s = .next t) :
    observe f (j + k) s = observe f j s ++ observe f k t := by
  induction j generalizing s with
  | zero => cases h; simp [observe]
  | succ j ih =>
    cases hs : step s with
    | next u =>
      rw [run_one_add j hs] at h
      rw [Nat.succ_add, observe_one_add f _ hs, observe_one_add f _ hs, ih h, List.cons_append]
    | fault r => simp [run, hs] at h
    | refused r => simp [run, hs] at h

theorem observe_length {α : Type} (f : State → α) {s t : State} (k : Nat) (h : run k s = .next t) :
    (observe f k s).length = k := by
  induction k generalizing s with
  | zero => rfl
  | succ k ih =>
    cases hs : step s with
    | next u =>
      rw [run_one_add k hs] at h
      rw [observe_one_add f _ hs, List.length_cons, ih h]
    | fault r => simp [run, hs] at h
    | refused r => simp [run, hs] at h

/-- Whatever holds at the start of a run and is kept by every step holds at its end. -/
theorem run_induction {P : State → Prop} (hstep : ∀ s t, P s → step s = .next t → P t) {s t : State} (k : Nat)
    (hs : P s) (h : run k s = .next t) : P t := by
  induction k generalizing s with
  | zero => cases h; exact hs
  | succ k ih =>
    cases hst : step s with
    | next u =>
      rw [run_one_add k hst] at h
      exact ih (hstep s u hs hst) h
    | fault r => simp [run, hst] at h
    | refused r => simp [run, hst] at h

end Sys2Proof.Machine
end

