-- ==== Sys2Proof/Tests/Slice0.lean ====
section
/-! SUPPORT. Tests with results taken from spec/95_test_vectors.md and the worked examples, each on one step; and for every
statement with hypotheses a state that meets them all. -/

namespace Sys2Proof.Tests

open Sys2Proof.Machine

/-! ### The test vectors' own profiles and start state (95_test_vectors.md, Conventions) -/

def toy : Profile := { t1h := 3, t1l := 2, t0h := 1, t0l := 4, tres := 6 }

def least : Profile := { t1h := 2, t1l := 1, t0h := 1, t0l := 1, tres := 1 }

/-- The reset state, with a profile and a script. -/
def start (p : Profile) (script : List HostAction) : State :=
  { regs := Registers.reset, profile := p, strand := Strand.initial, script := script }

/-- A machine in given registers. -/
def inRegs (p : Profile) (r : Registers) (script : List HostAction) : State := { start p script with regs := r }

def present (w : CmdWord) : HostAction := .port (.present w)

def rawInput (i : Inputs) : HostAction := .port (.raw i)

/-- The registers after one step, where there is a next state. -/
def nextRegs (s : State) : Option Registers :=
  match step s with
  | .next t => some t.regs
  | .fault _ => none
  | .refused _ => none

/-- Why a step was refused. -/
def refusal (s : State) : Option Refusal :=
  match step s with
  | .next _ => none
  | .fault _ => none
  | .refused r => some r

/-! ### Well-formedness: each check refuses an ill-formed term -/

theorem test_wf_refuses_reserved : Instr.wf .reserved = false ∧ Instr.wf (.byte 255#8) = true := by decide
theorem test_wf_refuses_zero_constant :
    Profile.build 0 2 1 4 6 = none ∧ Profile.build 3 0 1 4 6 = none ∧ Profile.build 3 2 0 4 6 = none ∧
      Profile.build 3 2 1 0 6 = none ∧ Profile.build 3 2 1 4 0 = none ∧ Profile.build 3 2 1 4 6 = some toy := by decide
theorem test_wf_refuses_unordered_profile :
    Profile.ordered { t1h := 2, t1l := 2, t0h := 2, t0l := 4, tres := 6 } = false ∧ toy.ordered = true := by decide
theorem test_wf_refuses_short_frame :
    HostCall.wf 2 (.sendFrame [⟨1#8, 2#8, 3#8⟩]) = false ∧ HostCall.wf 1 (.sendFrame [⟨1#8, 2#8, 3#8⟩]) = true := by
  decide
theorem test_wf_refuses_presented_reserved :
    PortAction.wf (.present 0x300#10) = false ∧ PortAction.wf (.present 0x2FF#10) = true := by decide
theorem test_wf_refuses_raw_reserved :
    PortAction.wf (.raw ⟨false, true, 0b11#2, 0#8⟩) = false ∧ PortAction.wf (.raw ⟨true, true, 0b11#2, 0#8⟩) = true := by
  decide

/-! ### Decoding: words written out from R49 to R51, and the ignored bits of V4 and V9 -/

theorem test_decode_bit :
    decode 0b0000000000#10 = .bit false ∧ decode 0b0000000001#10 = .bit true ∧ decode 0x0FF#10 = .bit true ∧
      decode 0x0FE#10 = .bit false := by decide
theorem test_decode_byte : decode 0b0110110000#10 = .byte 0b10110000#8 ∧ decode 0x101#10 = .byte 1#8 := by decide
theorem test_decode_latch : decode 0b1000000000#10 = .latch ∧ decode 0x2AB#10 = .latch := by decide
theorem test_decode_reserved : decode 0b1100000000#10 = .reserved ∧ decode 0x3FF#10 = .reserved := by decide
theorem test_decode_rejects_eleven_bits :
    decodeTableWord 16 0x400 = none ∧ decodeTableWord 16 0x1B0 = some (.byte 0xB0#8) := by decide
theorem test_table_rows_disjoint :
    opcodeTable.Pairwise fun r q => r.matchWord &&& q.mask ≠ q.matchWord &&& r.mask := by decide

/-! ### The commands, one edge each -/

/-- V1, cycle 1. -/
theorem test_bit_zero : nextRegs (start toy [present 0x000#10]) = some ⟨.high, 1, false, 0x00#8, 0, true⟩ := by decide
/-- V2, cycle 1. -/
theorem test_bit_one : nextRegs (start toy [present 0x001#10]) = some ⟨.high, 3, true, 0x00#8, 0, true⟩ := by decide
/-- V8, cycle 1. -/
theorem test_byte_start : nextRegs (start least [present 0x1A5#10]) = some ⟨.high, 2, true, 0x4A#8, 7, true⟩ := by decide
/-- V8, cycles 3 and 4: the bit boundary, with a `LATCH` word standing on the port. -/
theorem test_byte_boundary :
    nextRegs (inRegs least ⟨.low, 1, true, 0x4A#8, 7, false⟩ [present 0x200#10]) =
      some ⟨.high, 1, false, 0x94#8, 6, true⟩ := by decide
/-- V9, cycle 1, with ignored bits set. -/
theorem test_latch_ignored_bits : nextRegs (start toy [present 0x2AB#10]) = some ⟨.reset, 6, false, 0x00#8, 0, false⟩ := by
  decide
/-- V8, cycles 20 and 21: accepted in the last low cycle, `cur` kept. -/
theorem test_latch_after_byte :
    nextRegs (inRegs least ⟨.low, 1, true, 0x00#8, 0, false⟩ [present 0x200#10]) =
      some ⟨.reset, 1, true, 0x00#8, 0, false⟩ := by decide
/-- V14: refused when accepted. -/
theorem test_reserved_refused : refusal (start toy [present 0x300#10]) = some .reservedOp := by decide
/-- V14: harmless in cycle 1 of V2. -/
theorem test_reserved_unread_while_busy :
    nextRegs (inRegs toy ⟨.high, 3, true, 0x00#8, 0, true⟩ [present 0x300#10]) =
      some ⟨.high, 2, true, 0x00#8, 0, true⟩ := by decide

/-! ### Sequencer, reset, host -/

/-- V2, cycles 3 and 4. -/
theorem test_high_ends_in_low :
    nextRegs (inRegs toy ⟨.high, 1, true, 0x00#8, 0, true⟩ []) = some ⟨.low, 2, true, 0x00#8, 0, false⟩ := by decide
/-- V2, cycles 5 and 6. -/
theorem test_to_idle :
    nextRegs (inRegs toy ⟨.low, 1, true, 0x00#8, 0, false⟩ []) = some ⟨.idle, 0, true, 0x00#8, 0, false⟩ := by decide
/-- V18: reset beats acceptance. -/
theorem test_reset_beats_acceptance :
    nextRegs (start toy [rawInput ⟨true, true, 0b00#2, 1#8⟩]) = some Registers.reset := by decide
/-- P4, cycles 7 and 8. -/
theorem test_reset_in_mid_pulse :
    nextRegs (inRegs toy ⟨.high, 2, true, 0xFC#8, 6, true⟩ [.port .rst]) = some Registers.reset := by decide
/-- R73's worked example: the trace of `BIT 1` under `TOY`. -/
theorem test_trace_bit_one : lineTrace 6 (start toy [present 0x001#10]) = [false, true, true, true, false, false] := by
  decide
/-- S3. -/
theorem test_send_pixel_grb :
    HostCall.actions ⟨1, 0, .grb, 0#8⟩ (.sendPixel ⟨10#8, 20#8, 30#8⟩) =
      [.present 0x114#10, .present 0x10A#10, .present 0x11E#10] := by decide
/-- V21. -/
theorem test_send_packed_brg :
    HostCall.actions ⟨1, 0, .brg, 0#8⟩ (.sendPixelPacked 3 0xFF0A141E#32) =
      [.present 0x11E#10, .present 0x10A#10, .present 0x114#10] := by decide
/-- V19. -/
theorem test_scale :
    scale 64#8 255#8 = 63#8 ∧ scale 255#8 128#8 = 127#8 ∧ scale 2#8 128#8 = 1#8 ∧ scale 0#8 255#8 = 255#8 := by decide
/-- S4. -/
theorem test_pack : packColour ⟨255#8, 0#8, 128#8⟩ = 0x00FF0080#32 ∧ unpackColour 0xAB123456#32 = ⟨0x12#8, 0x34#8, 0x56#8⟩ := by
  decide
/-- A word placed after reset is run by the next step. -/
theorem test_fetch_word_from_reset :
    step (State.reset.withFetchWord 16 0x1B0) = exec (.byte 0xB0#8) State.reset := rfl
/-- The helper of 95_test_vectors.md on the trace of V3. -/
theorem test_read_bits :
    readBits toy [false, true, true, true, false, false, true, false, false, false, false, false] =
      some [some true, some false] := by decide
/-- U6: undefined where the 0 bit's high time is the longer one, or the same. -/
theorem test_read_bits_undefined :
    readBits { t1h := 1, t1l := 1, t0h := 2, t0l := 1, tres := 1 } [false, true, false] = none ∧
      readBits { t1h := 2, t1l := 1, t0h := 2, t0l := 1, tres := 1 } [false, true, true, false] = none := by decide
/-- R143 under TOY: `BIT 1; IDLE 5` has ended in cycle 6, while the gap still runs. -/
theorem test_run_ends_before_a_trailing_gap :
    observe State.ended 7 (start toy [present 0x001#10, .port (.idle 5)]) =
      [false, false, false, false, false, false, true] := by decide
/-- R143 under TOY: `BIT 1; WAIT 5; RST` has `rst = 1` in cycle 6, so it has ended in cycle 7. -/
theorem test_run_ends_with_rst_low :
    observe State.ended 8 (start toy [present 0x001#10, .port (.wait 5), .port .rst]) =
      [false, false, false, false, false, false, false, true] := by decide

/-! ### Witnesses: states that meet the hypotheses of the statements -/

theorem witness_PlacedWordIsTheNextCommand :
    decodeTableWord 16 0x3FF = some .reserved ∧ State.reset.regs.done = true := by decide
theorem witness_ResetEdgeGivesTheResetState : (inRegs toy ⟨.high, 2, true, 0xFC#8, 6, true⟩ [.port .rst]).inputs.rst = true := by
  decide
theorem witness_HeldResetThenCommand :
    [(⟨true, true, 0b11#2, 0#8⟩ : Inputs)] ≠ [] ∧ (∀ i ∈ [(⟨true, true, 0b11#2, 0#8⟩ : Inputs)], i.rst = true) ∧
      Instr.latch.wf = true ∧
      (start toy [rawInput ⟨true, true, 0b11#2, 0#8⟩, present (encode .latch)]).script =
        [(⟨true, true, 0b11#2, 0#8⟩ : Inputs)].map (fun i => .port (.raw i)) ++ [.port (.present (encode .latch))] := by
  decide

/-- One witness for each arm of R65. -/
theorem witness_StepPerformsOneOfFourArms :
    (start toy [.port .rst]).inputs.rst = true ∧
    ((start toy [present 1#10]).inputs.rst = false ∧ (start toy [present 1#10]).regs.done = true ∧
      (start toy [present 1#10]).inputs.valid = true) ∧
    ((start toy []).inputs.rst = false ∧ (start toy []).regs.done = true ∧ (start toy []).inputs.valid = false) ∧
    ((inRegs toy ⟨.high, 1, true, 0#8, 0, true⟩ []).inputs.rst = false ∧
      (inRegs toy ⟨.high, 1, true, 0#8, 0, true⟩ []).regs.done = false) ∧
    (nextRegs (start toy [])).isSome = true := by decide

/-- Two busy blocks, a `LATCH` word on one port and a reserved one on the other. -/
theorem witness_UnacceptedWordsChangeNothing :
    let s := inRegs toy ⟨.high, 1, true, 0#8, 0, true⟩ [present 0x200#10]
    let u := inRegs toy ⟨.high, 1, true, 0#8, 0, true⟩ [present 0x3FF#10]
    s.regs = u.regs ∧ s.profile = u.profile ∧ s.inputs.rst = u.inputs.rst ∧ s.accepted = none ∧ u.accepted = none ∧
      (nextRegs s).isSome = true := by decide

/-- The least count that may still be lowered. -/
theorem witness_CountDownInsideAPhase :
    let s := inRegs toy ⟨.reset, 2, true, 0#8, 0, false⟩ []
    s.inputs.rst = false ∧ s.regs.done = false ∧ 1 < s.regs.cnt ∧ Registers.reset.phase = .idle := by decide

theorem witness_PhaseEndBeginsTheNextPhase :
    (let s := inRegs toy ⟨.high, 1, true, 0#8, 0, true⟩ []
     s.inputs.rst = false ∧ s.regs.phase = .high ∧ s.regs.cnt = 1) ∧
    (let s := inRegs toy ⟨.low, 1, true, 0x80#8, 1, false⟩ []
     s.inputs.rst = false ∧ s.regs.phase = .low ∧ s.regs.cnt = 1 ∧ s.regs.rem ≠ 0 ∧ s.regs.done = false) := by decide

theorem witness_SerializerAfterKBoundaries : 7 ≤ 7 ∧ 0 ≤ 7 := by decide

theorem witness_NoCommandGoesToIdle :
    (start toy []).inputs.rst = false ∧ (start toy []).regs.done = true ∧ (start toy []).inputs.valid = false ∧
      (start toy []).Inv ∧ (start toy []).regs.phase = .idle := by decide

/-- A step that rises, and one that falls. -/
theorem witness_LineFollowsThePhaseEntered :
    ((start toy []).regs.dout = true ↔ (start toy []).regs.phase = .high) ∧
    (nextRegs (start toy [present 1#10])).map Registers.dout = some true ∧
    (nextRegs (inRegs toy ⟨.high, 1, true, 0#8, 0, true⟩ [])).map Registers.dout = some false := by decide

theorem witness_TransitionTableIsComplete :
    ((inRegs toy ⟨.high, 1, true, 0#8, 0, true⟩ []).inputs.rst = false ∧
      (nextRegs (inRegs toy ⟨.high, 1, true, 0#8, 0, true⟩ [])).isSome = true) ∧
    (start toy [.port .rst]).inputs.rst = true ∧ (nextRegs (start toy [.port .rst])).isSome = true := by decide

theorem witness_CommandsChangeOnlyRegisters :
    ∃ t, exec .latch (start toy []) = .next t ∧ ∃ u, exec (.byte 0x80#8) (start toy []) = .next u :=
  ⟨_, rfl, _, rfl⟩

/-- The shortest command there is, `LATCH` under the least profile. -/
theorem witness_AcceptedCommandPlaysItsWave :
    let s := start least [present 0x200#10]
    s.accepted = some .latch ∧ Instr.latch ≠ .reserved ∧ rstLow (commandLen s.profile .latch) s = true := by decide

theorem witness_CommandCannotBeDisturbed :
    let s := start least [present 0x001#10]
    let u := start least [present 0x0FF#10, present 0x1FF#10]
    s.regs = u.regs ∧ s.profile = u.profile ∧ s.accepted = some (.bit true) ∧ u.accepted = some (.bit true) ∧
      Instr.bit true ≠ .reserved ∧ rstLow (commandLen s.profile (.bit true)) s = true ∧
      rstLow (commandLen s.profile (.bit true)) u = true := by decide

theorem witness_BitEmitsOneCell :
    let s := start least [present 0x000#10]
    s.Inv ∧ s.accepted = some (.bit false) ∧ rstLow (highTime s.profile false + lowTime s.profile false) s = true := by
  decide

theorem witness_ByteEmitsEightCells :
    let s := start least [present 0x1B0#10]
    s.Inv ∧ s.accepted = some (.byte 0b10110000#8) ∧ rstLow (commandLen s.profile (.byte 0b10110000#8)) s = true := by
  decide

/-- The first and the last cycle of the hold. -/
theorem witness_LatchHoldsForTresCycles :
    let s := start toy [present 0x200#10]
    s.accepted = some .latch ∧ rstLow s.profile.tres s = true ∧ 0 < s.profile.tres ∧ 5 < s.profile.tres ∧
      0 + 1 < s.profile.tres := by decide

theorem witness_LowRunAroundALatch :
    (let s := start least [present 0x200#10]
     s.Inv ∧ s.accepted = some .latch ∧ rstLow (s.profile.tres + 1) s = true) ∧
    (let s := start least (PacedCommands.script ([(1, .bit false)] ++ [(0, .bit true), (2, .latch), (0, .bit false)]))
     s.afterReset = true ∧ PacedCommands.wf [(1, .bit false)] = true ∧ commandBits (.bit true) = [] ++ [true] ∧
       commandBits (.bit false) = false :: [] ∧
       s.script = PacedCommands.script ([(1, .bit false)] ++ [(0, .bit true), (2, .latch), (0, .bit false)])) ∧
    (start least (PacedCommands.script [(0, .latch), (1, .bit true)])).script =
      PacedCommands.script [(0, .latch), (1, .bit true)] := by decide

theorem witness_ByteEqualsEightBits :
    let s := start toy [present (encode (.byte 0x01#8))]
    let u := start toy ((bitsOf 0x01#8).map fun b => present (encode (.bit b)))
    s.regs = u.regs ∧ s.profile = u.profile ∧ s.strand = u.strand ∧ s.regs.done = true ∧
      s.script = [.port (.present (encode (.byte 0x01#8)))] ∧
      u.script = (bitsOf 0x01#8).map (fun b => .port (.present (encode (.bit b)))) := by decide

/-- An idle block left alone, and one that takes a command. -/
theorem witness_IdleHoldsTheLineLow :
    (start toy []).Inv ∧ (start toy []).regs.phase = .idle ∧ (start toy []).script = [] ∧
    (start toy [present 1#10]).regs.phase = .idle ∧
      (nextRegs (start toy [present 1#10])).map Registers.phase = some .high := by decide

/-- A state in the middle of a byte. -/
theorem witness_StepKeepsTheInvariants :
    (inRegs toy ⟨.low, 1, true, 0x80#8, 1, false⟩ []).Inv ∧
      (nextRegs (inRegs toy ⟨.low, 1, true, 0x80#8, 1, false⟩ [])).isSome = true := by decide

theorem witness_ReachableStatesMeetTheInvariants :
    (start toy [present 1#10]).afterReset = true ∧ ∃ t, run 2 (start toy [present 1#10]) = .next t :=
  ⟨by decide, _, rfl⟩

theorem witness_CounterFitsItsWidth : Invariants toy ⟨.reset, 6, false, 0#8, 0, false⟩ := by decide

theorem witness_OnlyTheReservedWordStopsAStep :
    (start toy [present 0x300#10]).Inv ∧ (start toy [present 0x300#10]).accepted = some .reserved ∧
      (nextRegs (start toy [])).isSome = true := by decide

theorem witness_DutifulHostNeverStopsTheRun :
    (start toy [present 1#10]).Inv ∧ safeRun 3 (start toy [present 1#10]) = true := by decide

theorem witness_ProfileNeverChanges :
    (∃ t, run 2 (start toy [present 1#10]) = .next t) ∧
      (start toy [.port .rst]).inputs.rst = true ∧ ∃ t, step (start toy [.port .rst]) = .next t :=
  ⟨⟨_, rfl⟩, by decide, _, rfl⟩

/-- Blocks in the first cycle of the longest command: eight 1 cells under the least profile, and a latch hold where
`TRES` is the longer. -/
theorem witness_BlockBecomesReady :
    (let s := inRegs least ⟨.high, 2, true, 0xFE#8, 7, true⟩ []
     s.Inv ∧ rstLow (longestCommand s.profile) s = true ∧ s.regs.cmdReady = false ∧ longestCommand s.profile = 24) ∧
    (let p : Profile := { t1h := 2, t1l := 1, t0h := 1, t0l := 1, tres := 30 }
     let s := inRegs p ⟨.reset, 30, true, 0#8, 0, false⟩ []
     s.Inv ∧ rstLow (longestCommand s.profile) s = true ∧ s.regs.cmdReady = false ∧ longestCommand s.profile = 30) := by
  decide

theorem witness_TraceOfPacedCommands :
    let s := start toy (PacedCommands.script [(0, .bit true), (3, .byte 0x80#8), (0, .latch)])
    s.afterReset = true ∧ PacedCommands.wf [(0, .bit true), (3, .byte 0x80#8), (0, .latch)] = true ∧
      s.script = PacedCommands.script [(0, .bit true), (3, .byte 0x80#8), (0, .latch)] := by decide

theorem witness_WellPacedFrameOnTheLine :
    let s := start toy (PacedCommands.script [(2, .byte 0x80#8), (0, .latch)])
    s.afterReset = true ∧ PacedCommands.wf [(2, .byte 0x80#8), (0, .latch)] = true ∧
      s.script = PacedCommands.script [(2, .byte 0x80#8), (0, .latch)] ∧
      PacedCommands.wellPaced Config.gapTolDefault [(2, .byte 0x80#8), (0, .latch)] = true := by decide

theorem witness_PortsMatchTheReferencePlayer : (start toy [present 0x300#10]).afterReset = true := by decide

theorem witness_LineSpellsTheAcceptedCommands :
    (start least [present 1#10]).afterReset = true ∧ (start least [present 1#10]).profile.ordered = true ∧
      safeRun 4 (start least [present 1#10]) = true ∧
      ∃ t, run 4 (start least [present 1#10]) = .next t ∧ t.regs.phase = .idle :=
  ⟨by decide, by decide, by decide, _, rfl, by decide⟩

/-- One Strand for each order. -/
theorem witness_PixelBytesInWireOrder :
    (⟨1, 0, .rgb, 0#8⟩ : Strand).order = .rgb ∧ (⟨1, 0, .grb, 0#8⟩ : Strand).order = .grb ∧
      (⟨1, 0, .brg, 0#8⟩ : Strand).order = .brg := by decide

/-- The stored brightness 0, and the least and the greatest that scale. -/
theorem witness_ScaleTakesTheHighByte : (0#8 : Byte) = 0#8 ∧ (1#8 : Byte) ≠ 0#8 ∧ (255#8 : Byte) ≠ 0#8 := by decide

/-- A call for each clause: one that writes nothing, and each of the two that write one field. -/
theorem witness_StrandFieldsAndTheirWriters :
    ((∀ n pin order flags, HostCall.clear ≠ .construct n pin order flags) ∧
      (∀ level, HostCall.clear ≠ .setBrightness level) ∧ ∀ pin, HostCall.clear ≠ .setOutputPin pin) ∧
    ((∀ n pin order flags, HostCall.setOutputPin 3 ≠ .construct n pin order flags) ∧
      ∀ level, HostCall.setOutputPin 3 ≠ .setBrightness level) ∧
    (∀ n pin order flags, HostCall.setBrightness 255#8 ≠ .construct n pin order flags) ∧
      ∀ pin, HostCall.setBrightness 255#8 ≠ .setOutputPin pin :=
  ⟨⟨nofun, nofun, nofun⟩, ⟨nofun, nofun⟩, nofun, nofun⟩

/-- A Strand of each order, and a silent call. -/
theorem witness_OperationsExpandToTheirCommands :
    (⟨1, 0, .rgb, 0#8⟩ : Strand).order = .rgb ∧ (⟨1, 0, .grb, 0#8⟩ : Strand).order = .grb ∧
    (⟨1, 0, .brg, 0#8⟩ : Strand).order = .brg ∧ (∃ x, HostCall.packColor ⟨1#8, 2#8, 3#8⟩ = .packColor x) :=
  ⟨rfl, rfl, rfl, ⟨_, rfl⟩⟩

/-- A silent call, one of several commands, and a ready block that reaches each of the three of one command. -/
theorem witness_CallsTakeNoCycleOfTheirOwn :
    ((start toy [.call (.setBrightness 9#8), present 1#10]).script = [.call (.setBrightness 9#8), .port (.present 1#10)] ∧
      (HostCall.setBrightness 9#8).actions Strand.initial = []) ∧
    ((start toy [.call (.sendPixel ⟨10#8, 20#8, 30#8⟩)]).script = [.call (.sendPixel ⟨10#8, 20#8, 30#8⟩)] ∧
      (HostCall.sendPixel ⟨10#8, 20#8, 30#8⟩).actions Strand.initial =
        .present 0x10A#10 :: [.present 0x114#10, .present 0x11E#10]) ∧
    (start toy [.call (.emitBit true)]).script = [.call (.emitBit true)] ∧
    (start toy [.call (.emitByte 0x80#8)]).script = [.call (.emitByte 0x80#8)] ∧
    (start toy [.call .latchFrame]).script = [.call .latchFrame] ∧
    (start toy [.call .latchFrame]).regs.done = true := by decide

/-- One program line of each kind, gaps of length 0, 1 and 2. -/
theorem witness_ProgramLinesOnThePorts :
    (start toy [present 0x3FF#10]).script = [.port (.present 0x3FF#10)] ∧
    (start toy [.port (.idle 1)]).script = [.port (.idle (0 + 1))] ∧
    (start toy [.port (.idle 2)]).script = [.port (.idle (1 + 1))] ∧
    (start toy [.port (.wait 1)]).script = [.port (.wait (0 + 1))] ∧
    (start toy [.port (.idle 0)]).script = [.port (.idle 0)] ∧
    (start toy [.port (.wait 0), present 1#10]).script = [.port (.wait 0), .port (.present 1#10)] ∧
    (start toy [.port .rst]).script = [.port .rst] ∧
    (start toy [rawInput ⟨true, true, 0b11#2, 0#8⟩]).script = [.port (.raw ⟨true, true, 0b11#2, 0#8⟩)] := by decide

/-- The shortest run, with a gap left in the list, and an ended cycle with a wait still running. -/
theorem witness_RunEndsAfterTheLastCommand :
    ((start least (PacedCommands.script [(0, .latch)] ++ [PortAction.idle 5].map .port)).afterReset = true ∧
      ([(0, .latch)] : PacedCommands) ≠ [] ∧ PacedCommands.wf [(0, .latch)] = true ∧
      (∀ a ∈ [PortAction.idle 5], ∃ k, a = .idle k ∨ a = .wait k)) ∧
    (start toy [.port (.wait 5)]).Inv ∧ (start toy [.port (.wait 5)]).ended = true ∧
      rstLow (3 + 1) (start toy [.port (.wait 5)]) = true :=
  ⟨⟨by decide, by decide, by decide, fun a h => ⟨5, .inl (List.mem_singleton.mp h)⟩⟩, by decide, by decide, by decide⟩

theorem witness_BrightnessScalesOnlyLaterPixels :
    let c : Colour := ⟨100#8, 100#8, 100#8⟩
    let s := start least
      [.call (.setBrightness 255#8), .call (.sendPixel c), .call (.setBrightness 0#8), .call (.sendPixel c)]
    s.afterReset = true ∧
      s.script =
        [.call (.setBrightness 255#8), .call (.sendPixel c), .call (.setBrightness 0#8), .call (.sendPixel c)] := by
  decide

theorem witness_FrameOnTheLine :
    let s : State := { start least [.call (.sendFrame [⟨1#8, 2#8, 3#8⟩])] with strand := ⟨1, 0, .grb, 0#8⟩ }
    s.afterReset = true ∧ s.strand.pixelCount = [(⟨1#8, 2#8, 3#8⟩ : Colour)].length ∧
      s.script = [.call (.sendFrame [⟨1#8, 2#8, 3#8⟩])] := by decide

/-- Words of each value of the `op` field. -/
theorem witness_DecoderFollowsTheOpField :
    opField 0x0FF#10 = 0b00#2 ∧ opField 0x100#10 = 0b01#2 ∧ opField 0x2FF#10 = 0b10#2 ∧ opField 0x300#10 = 0b11#2 := by
  decide

theorem witness_ProfileConstraintsAreChecked :
    Profile.build 2 1 1 1 1 = some least ∧ (Profile.build 1 1 1 1 1).isSome = true := by decide

end Sys2Proof.Tests
end

section
/-! SUPPORT. The scope statements: the profile is checked when it is built, it never changes, and it bounds the counter
(spec/00_scope.md R6 to R8, 40_sequencer.md R62). -/

namespace Sys2Proof

/-! ### Building and checking a profile -/

/-- R7 constraint 1, U5. -/
theorem Profile.build_eq_none {t1h t1l t0h t0l tres : Nat} :
    Profile.build t1h t1l t0h t0l tres = none ↔ t1h = 0 ∨ t1l = 0 ∨ t0h = 0 ∨ t0l = 0 ∨ tres = 0 := by
  unfold Profile.build
  split
  · simp only [reduceCtorEq, false_iff]
    omega
  · simp only [true_iff]
    omega

/-- A profile that was built holds the five numbers it was built with, in their order. -/
theorem Profile.build_eq_some {t1h t1l t0h t0l tres : Nat} {p : Profile}
    (h : Profile.build t1h t1l t0h t0l tres = some p) :
    p.t1h = t1h ∧ p.t1l = t1l ∧ p.t0h = t0h ∧ p.t0l = t0l ∧ p.tres = tres := by
  unfold Profile.build at h
  split at h
  · cases h
    exact ⟨rfl, rfl, rfl, rfl, rfl⟩
  · cases h

/-- R7 constraint 2. -/
theorem Profile.ordered_eq_true {p : Profile} : p.ordered = true ↔ p.t0h < p.t1h := decide_eq_true_iff

/-- Whatever the five open constants are, the profile the block is built with meets constraint 2 (log 1). -/
theorem Config.profile_ordered : Config.profile.ordered = true :=
  Profile.ordered_eq_true.mpr (show Config.t0hExtra + 1 < Config.t0hExtra + 1 + Config.t1hExtra + 1 by omega)

end Sys2Proof

namespace Sys2Proof.Machine

/-- The decoding helper is undefined exactly where the profile breaks constraint 2 (R7, U6). -/
theorem readBits_eq_none {p : Profile} {trace : List Level} : readBits p trace = none ↔ p.ordered = false := by
  cases h : p.ordered <;> simp [readBits, h]

/-! ### The width of the counter -/

/-- A bound above `longestPhase` is one above each of the five constants. -/
theorem longestPhase_lt {p : Profile} {n : Nat} :
    longestPhase p < n ↔ p.t1h < n ∧ p.t1l < n ∧ p.t0h < n ∧ p.t0l < n ∧ p.tres < n := by
  unfold longestPhase
  omega

/-- `CNT_W` is the least width whose range holds the longest phase (R8). -/
theorem cntWidth_le {p : Profile} {w : Nat} : cntWidth p ≤ w ↔ longestPhase p < 2 ^ w := by
  have hpos : longestPhase p ≠ 0 := by
    have := p.t1h_pos
    unfold longestPhase
    omega
  exact Nat.log2_lt hpos

theorem highTime_le_longestPhase (p : Profile) (b : Bool) : highTime p b ≤ longestPhase p := by
  unfold highTime longestPhase
  split <;> omega

theorem lowTime_le_longestPhase (p : Profile) (b : Bool) : lowTime p b ≤ longestPhase p := by
  unfold lowTime longestPhase
  split <;> omega

theorem tres_le_longestPhase (p : Profile) : p.tres ≤ longestPhase p := by
  unfold longestPhase
  omega

/-- Invariants 2 to 5 of R29 bound `cnt` by the longest phase. -/
theorem cnt_le_longestPhase {p : Profile} {r : Registers} (h : cntInRange p r) : r.cnt ≤ longestPhase p := by
  obtain ⟨hidle, hhigh, hlow, hreset⟩ := h
  cases hp : r.phase with
  | idle => exact (hidle hp).trans_le (Nat.zero_le _)
  | high => exact (hhigh hp).2.trans (highTime_le_longestPhase p _)
  | low => exact (hlow hp).2.trans (lowTime_le_longestPhase p _)
  | reset => exact (hreset hp).2.trans (tres_le_longestPhase p)

/-! ### Runs -/

/-- No run changes the profile (R6, R33). -/
theorem run_profile {s t : State} (k : Nat) (h : run k s = .next t) : t.profile = s.profile :=
  run_induction (P := fun u => u.profile = s.profile) (fun _ _ hu hstep => (step_profile hstep).trans hu) k rfl h

/-! ### The obligations -/

/-- Settles O35: every load value is at most `longestPhase`, and `CNT_W` is the least width that holds it. -/
theorem counterFitsItsWidth : Obligations.CounterFitsItsWidth := by
  intro p
  refine ⟨fun w => cntWidth_le.trans longestPhase_lt, fun r ⟨_, hcnt, _⟩ => ?_⟩
  calc r.cnt ≤ longestPhase p := cnt_le_longestPhase hcnt
    _ < 2 ^ cntWidth p := cntWidth_le.mp le_rfl

/-- Settles O38: every step keeps the profile, and leaves the Strand as the host's calls make it, in the reset arm as in
every other. -/
theorem profileNeverChanges : Obligations.ProfileNeverChanges :=
  ⟨fun _ _ k h => run_profile k h, fun _ _ _ h => step_strand h⟩

/-- Settles O9: `build` and `ordered` each check one constraint of R7, and `readBits` is guarded by `ordered`. -/
theorem profileConstraintsAreChecked : Obligations.ProfileConstraintsAreChecked := by
  refine ⟨Config.profile_ordered,
    fun _ _ _ _ _ => ⟨Profile.build_eq_none, fun _ => Profile.build_eq_some⟩, fun p => ?_⟩
  have hunordered : p.ordered = false ↔ p.t1h ≤ p.t0h := by
    rw [← Bool.not_eq_true, Profile.ordered_eq_true, Nat.not_lt]
  exact ⟨Profile.ordered_eq_true, fun _ => readBits_eq_none.trans hunordered⟩

end Sys2Proof.Machine
end

section
/-! SUPPORT. The state statements: the codes of the phases, the reset edge, the frame of the commands, the seven
invariants, and the block as a player of the levels still to come (spec/10_state.md R17 to R33). -/

namespace Sys2Proof.Machine

/-! ### Bits of a byte still to begin -/

@[simp] theorem shiftIn0_getLsbD_zero (x : Byte) : (shiftIn0 x).getLsbD 0 = false := by
  simp [shiftIn0]

theorem shiftIn0_getLsbD_succ (x : Byte) {k : Nat} (h : k < 7) : (shiftIn0 x).getLsbD (k + 1) = x.getLsbD k := by
  simp only [shiftIn0, BitVec.getLsbD_shiftLeft]
  simp [show k + 1 < 8 by omega]

/-- The top `n` bits of a byte, bit 7 first: what the serializer still sends when `rem = n` and `sh = x` (R20). -/
def topBits : Nat → Byte → List Bool
  | 0, _ => []
  | n + 1, x => x.getLsbD 7 :: topBits n (shiftIn0 x)

@[simp] theorem topBits_length (n : Nat) (x : Byte) : (topBits n x).length = n := by
  induction n generalizing x with
  | zero => rfl
  | succ n ih => simp [topBits, ih]

/-- The order in which a byte is sent (R38) is the order in which the serializer shifts it out. -/
theorem bitsOf_eq_topBits (v : Byte) : bitsOf v = topBits 8 v := by
  simp [bitsOf, topBits, shiftIn0, List.range_succ]

theorem bitsOf_eq_cons (v : Byte) : bitsOf v = v.getLsbD 7 :: topBits 7 (shiftIn0 v) := bitsOf_eq_topBits v

/-! ### The invariants: one lemma per operation -/

/-- Invariant 7 of R29, of the registers alone: the bits of `sh` below the `rem` still to begin are zero. -/
abbrev spentBitsZero (r : Registers) : Prop := ∀ k : Fin 8, k.val < 8 - r.rem.val → r.sh.getLsbD k.val = false

/-- Entering a phase sets `dout` to the phase's level, so invariant 1 needs no premise. -/
theorem invariants_enterPhase {p : Profile} {r : Registers} {ph : Phase} {k : Nat}
    (hcnt : cntInRange p (r.enterPhase ph k)) (hrem : ph = .idle ∨ ph = .reset → r.rem = 0) (hsh : spentBitsZero r) :
    Invariants p (r.enterPhase ph k) :=
  ⟨Phase.level_eq_true ph, hcnt, hrem, hsh⟩

theorem invariants_reset (p : Profile) : Invariants p Registers.reset := by
  simp [Invariants, cntInRange, Registers.reset]

/-- Where a command can be taken, no bit of the last one is still to begin. -/
theorem rem_eq_zero_of_done {p : Profile} {r : Registers} (h : Invariants p r) (hd : r.done = true) : r.rem = 0 := by
  obtain ⟨-, -, hrem, -⟩ := h
  cases hp : r.phase with
  | idle => exact hrem (.inl hp)
  | high => simp [not_done_of_high hp] at hd
  | low => exact ((done_of_low hp).mp hd).2
  | reset => exact hrem (.inr hp)

theorem spentBitsZero_of_invariants {p : Profile} {r : Registers} (h : Invariants p r) : spentBitsZero r := by
  obtain ⟨-, -, -, hsh⟩ := h
  exact hsh

theorem sh_eq_zero_of_rem_eq_zero {r : Registers} (h : spentBitsZero r) (hrem : r.rem = 0) : r.sh = 0#8 := by
  apply BitVec.eq_of_getLsbD_eq
  intro i hi
  simpa using h ⟨i, hi⟩ (by simpa [hrem] using hi)

theorem spentBitsZero_loadBit (b : Bool) (r : Registers) : spentBitsZero (loadBit b r) := by
  simp [spentBitsZero]

/-- Seven bits of the byte are still to begin; only the 0 shifted in stands below them. -/
theorem spentBitsZero_loadByte (v : Byte) (r : Registers) : spentBitsZero (loadByte v r) := by
  intro k hk
  obtain rfl : k = 0 := Fin.ext (Nat.lt_one_iff.mp hk)
  exact shiftIn0_getLsbD_zero v

/-- A shift frees one bit and puts a 0 in the lowest. -/
theorem spentBitsZero_nextBit {r : Registers} (h : spentBitsZero r) : spentBitsZero (nextBit r) := by
  rintro ⟨k, hk8⟩ hk
  simp only [nextBit_rem, nextBit_sh, lowerRem_val] at hk ⊢
  cases k with
  | zero => exact shiftIn0_getLsbD_zero r.sh
  | succ k =>
    rw [shiftIn0_getLsbD_succ r.sh (by omega)]
    exact h ⟨k, by omega⟩ (show k < 8 - r.rem.val by omega)

theorem invariants_beginCell {p : Profile} {r : Registers} (hsh : spentBitsZero r) : Invariants p (r.beginCell p) :=
  invariants_enterPhase (by simp [cntInRange, highTime_pos]) (by simp) hsh

theorem invariants_toIdle {p : Profile} {r : Registers} (h : Invariants p r) (hd : r.done = true) :
    Invariants p r.toIdle :=
  invariants_enterPhase (by simp [cntInRange]) (fun _ => rem_eq_zero_of_done h hd) (spentBitsZero_of_invariants h)

theorem invariants_enterReset {p : Profile} {r : Registers} (h : Invariants p r) (hd : r.done = true) :
    Invariants p (r.enterPhase .reset p.tres) :=
  invariants_enterPhase (by simp [cntInRange, p.tres_pos]) (fun _ => rem_eq_zero_of_done h hd)
    (spentBitsZero_of_invariants h)

theorem invariants_countDown {p : Profile} {r : Registers} (h : Invariants p r) (hlt : 1 < r.cnt) :
    Invariants p r.countDown := by
  obtain ⟨-, ⟨hidle, hhigh, hlow, hreset⟩, hrem, hsh⟩ := h
  refine invariants_enterPhase ⟨fun hp => ?_, fun hp => ?_, fun hp => ?_, fun hp => ?_⟩ hrem hsh <;>
    simp only [enterPhase_phase, enterPhase_cnt, enterPhase_cur] at hp ⊢
  · have := hidle hp
    omega
  · have := hhigh hp
    omega
  · have := hlow hp
    omega
  · have := hreset hp
    omega

theorem invariants_fall {p : Profile} {r : Registers} (h : Invariants p r) : Invariants p (r.fall p) :=
  invariants_enterPhase (by simp [cntInRange, lowTime_pos]) (by simp) (spentBitsZero_of_invariants h)

theorem invariants_advance {p : Profile} {r r' : Registers} (h : Invariants p r) (ha : r.advance p = some r') :
    Invariants p r' := by
  obtain ⟨hlt, rfl⟩ | ⟨-, -, rfl⟩ | ⟨-, -, rfl⟩ := advance_cases ha
  · exact invariants_countDown h hlt
  · exact invariants_fall h
  · exact invariants_beginCell (spentBitsZero_nextBit (spentBitsZero_of_invariants h))

/-- The start arms keep the invariants of a block that is ready. -/
theorem inv_exec {i : Instr} {s t : State} (h : s.Inv) (hd : s.regs.done = true) (hx : exec i s = .next t) : t.Inv := by
  obtain ⟨b, -, rfl⟩ | ⟨v, -, rfl⟩ | ⟨-, rfl⟩ := exec_cases hx
  · exact invariants_beginCell (spentBitsZero_loadBit b _)
  · exact invariants_beginCell (spentBitsZero_loadByte v _)
  · exact invariants_enterReset h hd

/-- `step_cases` with the inputs and the block's readiness that choose each arm (R64, R65). -/
theorem step_cases_of_inputs {s t : State} (h : step s = .next t) :
    (s.inputs.rst = true ∧ t.regs = Registers.reset) ∨
    (s.inputs.rst = false ∧ s.regs.done = true ∧ s.inputs.valid = true ∧
      exec (decode s.inputs.word) s.afterHost = .next t) ∨
    (s.inputs.rst = false ∧ s.regs.done = true ∧ s.inputs.valid = false ∧ t.regs = s.regs.toIdle) ∨
    (s.inputs.rst = false ∧ s.regs.done = false ∧ s.regs.advance s.profile = some t.regs) := by
  obtain ⟨-, hc⟩ := step_cases h
  simp only [State.arm] at hc
  obtain ⟨hr, ha⟩ | ⟨hr, hd, hv, ha⟩ | ⟨hr, hd, hv, ha⟩ | ⟨hr, hd, ha⟩ := armFor_cases s.regs s.inputs
  · exact .inl ⟨hr, by simpa [ha] using hc⟩
  · exact .inr (.inl ⟨hr, hd, hv, by simpa [ha] using hc⟩)
  · exact .inr (.inr (.inl ⟨hr, hd, hv, by simpa [ha] using hc⟩))
  · exact .inr (.inr (.inr ⟨hr, hd, by simpa [ha] using hc⟩))

theorem step_keeps_inv {s t : State} (h : s.Inv) (hs : step s = .next t) : t.Inv := by
  have hp := step_profile hs
  obtain ⟨-, ht⟩ | ⟨-, hd, -, hx⟩ | ⟨-, hd, -, ht⟩ | ⟨-, -, ha⟩ := step_cases_of_inputs hs
  · rw [State.Inv, ht]
    exact invariants_reset _
  · exact inv_exec (s := s.afterHost) h hd hx
  · rw [State.Inv, hp, ht]
    exact invariants_toIdle h hd
  · rw [State.Inv, hp]
    exact invariants_advance h ha

theorem regs_of_afterReset {s : State} (h : s.afterReset = true) : s.regs = Registers.reset := of_decide_eq_true h

theorem inv_of_afterReset {s : State} (h : s.afterReset = true) : s.Inv := by
  rw [State.Inv, regs_of_afterReset h]
  exact invariants_reset _

/-- Every state that a run from the reset registers reaches meets the invariants. -/
theorem inv_of_run_afterReset {s t : State} (k : Nat) (hs : s.afterReset = true) (h : run k s = .next t) : t.Inv :=
  run_induction (P := State.Inv) (fun _ _ => step_keeps_inv) k (inv_of_afterReset hs) h

/-! ### The levels still to come -/

theorem cell_ne_nil (p : Profile) (b : Bool) : cell p b ≠ [] := by
  have := highTime_pos p b
  simp only [cell, ne_eq, List.append_eq_nil_iff, List.replicate_eq_nil_iff]
  omega

/-- The levels of the cells that are still to begin (R20). -/
def Registers.unbegun (p : Profile) (r : Registers) : List Level := (topBits r.rem.val r.sh).flatMap (cell p)

/-- The levels that follow the current phase: the low half of a cell in its high half, then the cells still to begin. -/
def Registers.afterPhase (p : Profile) (r : Registers) : List Level :=
  (if r.phase = .high then List.replicate (lowTime p r.cur) false else []) ++ r.unbegun p

/-- The levels still to come, the current cycle's first: what the reference player holds where the block has
registers `r`. -/
def Registers.pending (p : Profile) (r : Registers) : List Level :=
  List.replicate r.cnt r.phase.level ++ r.afterPhase p

theorem unbegun_of_rem_eq_zero (p : Profile) {r : Registers} (h : r.rem = 0) : r.unbegun p = [] := by
  simp [Registers.unbegun, h, topBits]

theorem unbegun_of_rem_ne_zero (p : Profile) {r : Registers} (h : r.rem ≠ 0) :
    r.unbegun p = cell p (r.sh.getLsbD 7) ++ (nextBit r).unbegun p := by
  obtain ⟨n, hn⟩ : ∃ n, r.rem.val = n + 1 := Nat.exists_eq_succ_of_ne_zero (Fin.val_ne_zero_iff.mpr h)
  simp [Registers.unbegun, hn, topBits]

theorem unbegun_eq_nil {p : Profile} {r : Registers} : r.unbegun p = [] ↔ r.rem = 0 := by
  refine ⟨fun h => ?_, unbegun_of_rem_eq_zero p⟩
  by_contra hrem
  rw [unbegun_of_rem_ne_zero p hrem] at h
  exact cell_ne_nil p _ (List.append_eq_nil_iff.mp h).1

theorem afterPhase_of_high (p : Profile) {r : Registers} (h : r.phase = .high) :
    r.afterPhase p = List.replicate (lowTime p r.cur) false ++ r.unbegun p := by
  simp [Registers.afterPhase, h]

theorem afterPhase_of_ne_high (p : Profile) {r : Registers} (h : r.phase ≠ .high) : r.afterPhase p = r.unbegun p := by
  simp [Registers.afterPhase, h]

@[simp] theorem pending_reset (p : Profile) : Registers.reset.pending p = [] := rfl

/-- A cell that begins puts its own levels before those of the cells still to begin. -/
theorem pending_beginCell (p : Profile) (r : Registers) :
    (r.beginCell p).pending p = cell p r.cur ++ r.unbegun p := by
  rw [Registers.pending, afterPhase_of_high p (beginCell_phase r p)]
  exact (List.append_assoc _ _ _).symm

theorem pending_loadBit (p : Profile) (b : Bool) (r : Registers) :
    ((loadBit b r).beginCell p).pending p = wave p (.bit b) := by
  simp [pending_beginCell, unbegun_of_rem_eq_zero p (loadBit_rem r b), wave]

theorem pending_loadByte (p : Profile) (v : Byte) (r : Registers) :
    ((loadByte v r).beginCell p).pending p = wave p (.byte v) := by
  simp [pending_beginCell, Registers.unbegun, wave, bitsOf_eq_cons]

theorem pending_enterReset (p : Profile) {r : Registers} (h : r.rem = 0) :
    (r.enterPhase .reset p.tres).pending p = wave p .latch := by
  have hu : (r.enterPhase .reset p.tres).unbegun p = [] := unbegun_of_rem_eq_zero p h
  rw [Registers.pending, afterPhase_of_ne_high p (by simp), hu, List.append_nil]
  rfl

theorem pending_toIdle (p : Profile) {r : Registers} (h : r.rem = 0) : r.toIdle.pending p = [] :=
  unbegun_of_rem_eq_zero p (r := r.toIdle) h

/-- Where a phase lasts `n + 1` cycles more, one level of it comes first. -/
theorem pending_of_cnt_succ (p : Profile) {r : Registers} {n : Nat} (h : r.cnt = n + 1) :
    r.pending p = r.phase.level :: (List.replicate n r.phase.level ++ r.afterPhase p) := by
  simp [Registers.pending, h, List.replicate_succ]

/-- `advance` drops the current cycle's level: its three cases are the player's one. -/
theorem pending_advance {p : Profile} {r r' : Registers} (hd : r.done = false) (h : r.advance p = some r') :
    r'.pending p = (r.pending p).tail := by
  obtain ⟨hlt, rfl⟩ | ⟨hcnt, hp, rfl⟩ | ⟨hcnt, hp, rfl⟩ := advance_cases h
  · rw [pending_of_cnt_succ p (show r.cnt = r.cnt - 1 + 1 by omega)]
    rfl
  · rw [pending_of_cnt_succ p hcnt, afterPhase_of_high p hp]
    rfl
  · have hrem : r.rem ≠ 0 := fun hrem => by simp [(done_of_low hp).mpr ⟨hcnt, hrem⟩] at hd
    rw [pending_of_cnt_succ p hcnt, afterPhase_of_ne_high p (by simp [hp]), unbegun_of_rem_ne_zero p hrem]
    exact pending_beginCell p (nextBit r)

/-! ### The outputs -/

theorem cnt_pos_of_ne_idle {p : Profile} {r : Registers} (h : cntInRange p r) (hp : r.phase ≠ .idle) : 1 ≤ r.cnt := by
  obtain ⟨-, hhigh, hlow, hreset⟩ := h
  cases hph : r.phase with
  | idle => exact absurd hph hp
  | high => exact (hhigh hph).1
  | low => exact (hlow hph).1
  | reset => exact (hreset hph).1

theorem pending_eq_nil {p : Profile} {r : Registers} (h : Invariants p r) : r.pending p = [] ↔ r.phase = .idle := by
  obtain ⟨-, hcnt, hrem, -⟩ := h
  have ⟨hidle, _⟩ := hcnt
  constructor
  · intro hnil
    by_contra hp
    obtain ⟨n, hn⟩ := Nat.exists_eq_add_of_le' (cnt_pos_of_ne_idle hcnt hp)
    simp [pending_of_cnt_succ p hn] at hnil
  · intro hp
    simp [Registers.pending, hidle hp, afterPhase_of_ne_high p (hp.trans_ne (by decide)),
      unbegun_of_rem_eq_zero p (hrem (.inl hp))]

/-- The last level of a command is the one level in which the block is ready again (R71). -/
theorem pending_length_le_one {p : Profile} {r : Registers} (h : Invariants p r) :
    (r.pending p).length ≤ 1 ↔ r.done = true := by
  have hnil := pending_eq_nil h
  obtain ⟨-, ⟨-, hhigh, hlow, hreset⟩, hrem, -⟩ := h
  cases hp : r.phase with
  | idle => simp [hnil.mpr hp, done_of_idle hp]
  | high =>
    have hcnt := hhigh hp
    have htl := lowTime_pos p r.cur
    simp only [Registers.pending, afterPhase_of_high p hp, not_done_of_high hp, List.length_append,
      List.length_replicate, Bool.false_eq_true, iff_false]
    omega
  | low =>
    have hcnt := hlow hp
    rw [done_of_low hp, ← unbegun_eq_nil (p := p), ← List.length_eq_zero_iff, Registers.pending,
      afterPhase_of_ne_high p (by simp [hp]), List.length_append, List.length_replicate]
    omega
  | reset =>
    have hcnt := hreset hp
    rw [done_of_reset hp, Registers.pending, afterPhase_of_ne_high p (by simp [hp]),
      unbegun_of_rem_eq_zero p (hrem (.inr hp)), List.append_nil, List.length_replicate]
    omega

theorem pending_headD {p : Profile} {r : Registers} (h : Invariants p r) : (r.pending p).headD false = r.dout := by
  have hnil := pending_eq_nil h
  obtain ⟨hhigh, hcnt, -, -⟩ := h
  have hdout : r.dout = r.phase.level := Bool.eq_iff_iff.mpr (hhigh.trans (Phase.level_eq_true r.phase).symm)
  by_cases hp : r.phase = .idle
  · rw [hnil.mpr hp, hdout, hp]
    rfl
  · obtain ⟨n, hn⟩ := Nat.exists_eq_add_of_le' (cnt_pos_of_ne_idle hcnt hp)
    rw [pending_of_cnt_succ p hn, hdout]
    rfl

/-- The three outputs are the player's, read off the levels still to come. -/
theorem outputs_eq_playerOutputs {p : Profile} {r : Registers} (h : Invariants p r) :
    r.outputs = playerOutputs (r.pending p) := by
  have hready : r.cmdReady = decide ((r.pending p).length ≤ 1) := by
    rw [Bool.eq_iff_iff, decide_eq_true_iff, pending_length_le_one h]
    rfl
  have hbusy : r.busy = decide (r.pending p ≠ []) := decide_eq_decide.mpr (pending_eq_nil h).not.symm
  simp only [Registers.outputs, playerOutputs, hready, hbusy, pending_headD h]

/-! ### One edge, and runs -/

theorem playerStep_of_rst {p : Profile} {pending : List Level} {i : Inputs} (h : i.rst = true) :
    playerStep p pending i = some [] := by
  simp [playerStep, h]

theorem playerStep_of_accept {p : Profile} {pending : List Level} {i : Inputs} (hr : i.rst = false)
    (hv : i.valid = true) (hl : pending.length ≤ 1) (hc : decode i.word ≠ .reserved) :
    playerStep p pending i = some (wave p (decode i.word)) := by
  simp [playerStep, hr, hv, hl, hc]

/-- Where no command is taken the player drops the current level. -/
theorem playerStep_of_not_accept {p : Profile} {pending : List Level} {i : Inputs} (hr : i.rst = false)
    (h : i.valid = false ∨ ¬ pending.length ≤ 1) : playerStep p pending i = some pending.tail := by
  obtain hv | hl := h
  · simp [playerStep, hr, hv]
  · simp [playerStep, hr, hl]

/-- A start arm that answers a next state leaves the whole wave of its command still to come. -/
theorem pending_exec {i : Instr} {s t : State} (hrem : s.regs.rem = 0) (h : exec i s = .next t) :
    i ≠ .reserved ∧ t.regs.pending s.profile = wave s.profile i := by
  obtain ⟨b, rfl, rfl⟩ | ⟨v, rfl, rfl⟩ | ⟨rfl, rfl⟩ := exec_cases h
  · exact ⟨by simp, pending_loadBit s.profile b s.regs⟩
  · exact ⟨by simp, pending_loadByte s.profile v s.regs⟩
  · exact ⟨by simp, pending_enterReset s.profile hrem⟩

/-- The simulation of one edge: a step of the block is the player's step on the levels still to come. -/
theorem playerStep_pending {s t : State} (h : s.Inv) (hs : step s = .next t) :
    playerStep s.profile (s.regs.pending s.profile) s.inputs = some (t.regs.pending s.profile) := by
  have hlen := pending_length_le_one h
  obtain ⟨hr, ht⟩ | ⟨hr, hd, hv, hx⟩ | ⟨hr, hd, hv, ht⟩ | ⟨hr, hd, ha⟩ := step_cases_of_inputs hs
  · rw [playerStep_of_rst hr, ht, pending_reset]
  · obtain ⟨hc, hw⟩ := pending_exec (s := s.afterHost) (rem_eq_zero_of_done h hd) hx
    rw [playerStep_of_accept hr hv (hlen.mpr hd) hc, ← afterHost_profile s, hw]
  · rw [playerStep_of_not_accept hr (.inl hv), ht, pending_toIdle _ (rem_eq_zero_of_done h hd),
      ← List.drop_one, List.drop_eq_nil_of_le (hlen.mpr hd)]
  · have hnot : ¬ (s.regs.pending s.profile).length ≤ 1 := by simp [hlen, hd]
    rw [playerStep_of_not_accept hr (.inr hnot), pending_advance hd ha]

/-- The simulation along a run: where a step is refused both traces end. -/
theorem observe_outputs_eq_playerTrace {s : State} (k : Nat) (h : s.Inv) :
    observe (fun t => t.regs.outputs) k s =
      playerTrace s.profile (s.regs.pending s.profile) (observe State.inputs k s) := by
  induction k generalizing s with
  | zero => rfl
  | succ k ih =>
    cases hs : step s with
    | next t =>
      rw [observe_one_add _ k hs, observe_one_add _ k hs, ih (step_keeps_inv h hs), step_profile hs]
      simp only [playerTrace, playerStep_pending h hs, outputs_eq_playerOutputs h]
    | fault e => cases e
    | refused e =>
      simp only [observe, hs, playerTrace, outputs_eq_playerOutputs h]
      cases playerStep s.profile (s.regs.pending s.profile) s.inputs <;> rfl

/-! ### The obligations -/

/-- Settles O33: one lemma for each operation an arm performs. -/
theorem stepKeepsTheInvariants : Obligations.StepKeepsTheInvariants := fun _ _ => step_keeps_inv

/-- Settles O34: the reset registers meet the invariants and every step keeps them; the clauses are read off. -/
theorem reachableStatesMeetTheInvariants : Obligations.ReachableStatesMeetTheInvariants := by
  intro s t k hs hrun
  obtain ⟨hdout, ⟨hidle, hhigh, hlow, hreset⟩, hrem, hsh⟩ := inv_of_run_afterReset k hs hrun
  exact ⟨hdout, hidle, hhigh, hlow, hreset, hrem, Nat.le_of_lt_succ t.regs.rem.isLt,
    fun k hk => hsh ⟨k, by omega⟩ hk, sh_eq_zero_of_rem_eq_zero hsh⟩

/-- Settles O42: the block simulates the player through `Registers.pending`, which is empty after reset. -/
theorem portsMatchTheReferencePlayer : Obligations.PortsMatchTheReferencePlayer := by
  intro s k hs
  rw [observe_outputs_eq_playerTrace k (inv_of_afterReset hs), regs_of_afterReset hs, pending_reset]

/-- Settles O6, phase by phase. -/
theorem phaseCodesAndLevels : Obligations.PhaseCodesAndLevels := by
  refine ⟨rfl, rfl, rfl, rfl, fun ph => ?_, Phase.level_eq_true⟩
  cases ph <;> rfl

/-- Settles O7: with `rst = 1` the edge takes the reset arm, which loads `Registers.reset` and lets the host move. -/
theorem resetEdgeGivesTheResetState : Obligations.ResetEdgeGivesTheResetState := by
  intro s hrst
  exact ⟨_, step_of_reset (armFor_of_rst hrst), rfl, rfl, rfl, rfl, rfl, rfl, rfl, rfl, rfl, rfl, rfl, rfl⟩

/-- Settles O23, one start arm at a time. -/
theorem commandsChangeOnlyRegisters : Obligations.CommandsChangeOnlyRegisters := by
  intro i s t h
  obtain ⟨b, rfl, rfl⟩ | ⟨v, rfl, rfl⟩ | ⟨rfl, rfl⟩ := exec_cases h
  · exact ⟨rfl, rfl, rfl, nofun, .inr ⟨b, [], rfl, rfl, rfl⟩⟩
  · exact ⟨rfl, rfl, rfl, nofun, .inr ⟨v.getLsbD 7, topBits 7 (shiftIn0 v), bitsOf_eq_cons v, rfl, by simp⟩⟩
  · exact ⟨rfl, rfl, rfl, fun _ => ⟨rfl, rfl, rfl⟩, .inl rfl⟩

/-- Settles O32. -/
theorem resetMeetsTheInvariants : Obligations.ResetMeetsTheInvariants :=
  ⟨invariants_reset, invariants_reset Config.profile⟩

end Sys2Proof.Machine
end

section
/-! SUPPORT. The memory statements: a command in progress plays out its levels whatever stands on the port, and the
pulses of a run spell the bits of the commands it accepted (spec/20_memory.md R38, R42, R44). -/

namespace Sys2Proof.Machine

/-! ### A command in progress -/

/-- With `rst = 0` the block with registers `r` shows the levels `ls` and is ready only in the last of them: every edge
before that is `advance`, which reads nothing of the ports (R42). -/
inductive Registers.Plays (p : Profile) : Registers → List Level → Prop where
  | last {r : Registers} (hd : r.done = true) : Plays p r [r.dout]
  | advance {r r' : Registers} {ls : List Level} (hd : r.done = false) (ha : r.advance p = some r')
      (hls : Plays p r' ls) : Plays p r (r.dout :: ls)

theorem Registers.Plays.length_pos {p : Profile} {r : Registers} {ls : List Level} (h : r.Plays p ls) :
    0 < ls.length := by
  cases h <;> simp

/-- A running block that meets the invariants plays the levels still to come. -/
theorem plays_pending {p : Profile} {r : Registers} (h : Invariants p r) (hp : r.phase ≠ .idle) :
    r.Plays p (r.pending p) := by
  obtain ⟨tail, hpend⟩ : ∃ tail, r.pending p = r.dout :: tail := by
    rw [← pending_headD h]
    cases hl : r.pending p with
    | nil => exact absurd ((pending_eq_nil h).mp hl) hp
    | cons l tail => exact ⟨tail, rfl⟩
  have hlen : tail = [] ↔ r.done = true := by
    rw [← pending_length_le_one h, hpend]
    simp
  induction tail generalizing r with
  | nil => exact hpend ▸ .last (hlen.mp rfl)
  | cons l tail ih =>
    have hd : r.done = false := by simpa using hlen
    cases ha : r.advance p with
    | none =>
      obtain ⟨-, hcnt, -, -⟩ := h
      have := cnt_pos_of_ne_idle hcnt hp
      have := advance_eq_none hd ha
      omega
    | some r' =>
      have h' := invariants_advance h ha
      have hpend' : r'.pending p = l :: tail := by rw [pending_advance hd ha, hpend, List.tail_cons]
      have hp' : r'.phase ≠ .idle := fun hidle => by simp [(pending_eq_nil h').mpr hidle] at hpend'
      obtain rfl : r'.dout = l := by rw [← pending_headD h', hpend', List.headD_cons]
      refine hpend ▸ .advance hd ha (hpend' ▸ ih h' hp' hpend' ?_)
      rw [← pending_length_le_one h', hpend']
      simp

/-- A latch hold of `n + 1` cycles more, whatever is left in the serializer (R91). -/
theorem plays_enterReset (p : Profile) (r : Registers) (n : Nat) :
    (r.enterPhase .reset (n + 1)).Plays p (List.replicate (n + 1) false) := by
  induction n with
  | zero => exact .last ((done_of_reset rfl).mpr rfl)
  | succ n ih =>
    have hd : (r.enterPhase .reset (n + 2)).done = false := by simp [Registers.done]
    exact .advance hd (advance_of_lt p (by simp)) ih

/-- Every command starts, and the block then plays its wave (R71); nothing is asked of the state before. -/
theorem exec_plays_wave {c : Instr} (s : State) (hc : c ≠ .reserved) :
    ∃ t, exec c s = .next t ∧ t.regs.Plays s.profile (wave s.profile c) := by
  cases c with
  | bit b =>
    refine ⟨_, rfl, ?_⟩
    rw [← pending_loadBit s.profile b s.regs]
    exact plays_pending (invariants_beginCell (spentBitsZero_loadBit b s.regs)) (by simp)
  | byte v =>
    refine ⟨_, rfl, ?_⟩
    rw [← pending_loadByte s.profile v s.regs]
    exact plays_pending (invariants_beginCell (spentBitsZero_loadByte v s.regs)) (by simp)
  | latch =>
    obtain ⟨n, hn⟩ := Nat.exists_eq_add_of_le' s.profile.tres_pos
    refine ⟨_, rfl, ?_⟩
    simpa only [withRegs_regs, wave, hn] using plays_enterReset s.profile s.regs n
  | reserved => exact absurd rfl hc

theorem wave_length (p : Profile) (c : Instr) : (wave p c).length = commandLen p c := by
  cases c <;> simp [wave, commandLen, cell, List.length_flatMap]

theorem observe_one {α : Type} (f : State → α) (s : State) : observe f 1 s = [f s] := by
  cases hs : step s <;> simp [observe, hs]

theorem lineTrace_one_add {s t : State} (k : Nat) (h : step s = .next t) :
    lineTrace (k + 1) s = s.regs.dout :: lineTrace k t :=
  observe_one_add _ k h

theorem readyTrace_one_add {s t : State} (k : Nat) (h : step s = .next t) :
    readyTrace (k + 1) s = s.regs.cmdReady :: readyTrace k t :=
  observe_one_add _ k h

theorem rstLow_one_add {s : State} {k : Nat} :
    rstLow (k + 1) s = true ↔ s.inputs.rst = false ∧ ∀ t, step s = .next t → rstLow k t = true := by
  cases hs : step s <;> simp [rstLow, observe, hs]

/-- What a run shows of a block that plays the `n + 1` levels `ls`, for every host that leaves `rst` low until the block
is ready: those levels, `cmd_ready` in the last of them only, and no stop before it. -/
theorem traces_of_plays {r : Registers} {p : Profile} {ls : List Level} (h : r.Plays p ls) {s : State} {n : Nat}
    (hr : s.regs = r) (hp : s.profile = p) (hn : ls.length = n + 1) (hrst : rstLow n s = true) :
    lineTrace (n + 1) s = ls ∧ readyTrace (n + 1) s = readyWave (n + 1) ∧
      ∃ t, run n s = .next t ∧ t.regs.cmdReady = true := by
  induction h generalizing s n with
  | last hd =>
    obtain rfl : n = 0 := by simpa using hn.symm
    subst hr
    have hready : s.regs.cmdReady = true := hd
    exact ⟨observe_one _ s, by rw [readyTrace, observe_one, hready]; rfl, s, rfl, hready⟩
  | @advance r r' ls hd ha hls ih =>
    subst hr hp
    have hlen : ls.length = n := Nat.succ.inj hn
    obtain ⟨m, rfl⟩ := Nat.exists_eq_add_of_le' (hlen ▸ hls.length_pos)
    obtain ⟨hlow, hrst'⟩ := rstLow_one_add.mp hrst
    have hs := step_of_advance (armFor_advance hlow hd) ha
    have hready : s.regs.cmdReady = false := hd
    obtain ⟨hline, hrdy, hrun⟩ := ih (s := s.afterHost.withRegs r') rfl rfl hlen (hrst' _ hs)
    exact ⟨by rw [lineTrace_one_add _ hs, hline], by rw [readyTrace_one_add _ hs, hrdy, hready]; rfl,
      by rwa [run_one_add m hs]⟩

/-- An accepted command determines the line and `cmd_ready` in every cycle of it, and no step of it is refused: neither
depends on the port (R12, R42, R71). -/
theorem traces_of_accepted {s : State} {c : Instr} (ha : s.accepted = some c) (hc : c ≠ .reserved)
    (hrst : rstLow (commandLen s.profile c) s = true) :
    lineTrace (commandLen s.profile c + 1) s = s.regs.dout :: wave s.profile c ∧
    readyTrace (commandLen s.profile c + 1) s = s.regs.cmdReady :: readyWave (commandLen s.profile c) ∧
    ∃ t, run (commandLen s.profile c) s = .next t ∧ t.regs.cmdReady = true := by
  obtain ⟨t, hx, hplays⟩ := exec_plays_wave s.afterHost hc
  rw [afterHost_profile] at hplays
  have hs : step s = .next t := (step_of_start (accepted_eq_some.mp ha)).trans hx
  obtain ⟨n, hn⟩ := Nat.exists_eq_add_of_le' hplays.length_pos
  have hlen : commandLen s.profile c = n + 1 := by rw [← wave_length, hn]
  rw [hlen] at hrst ⊢
  obtain ⟨-, hrst'⟩ := rstLow_one_add.mp hrst
  obtain ⟨hline, hready, hrun⟩ := traces_of_plays hplays rfl (step_profile hs) hn (hrst' t hs)
  exact ⟨by rw [lineTrace_one_add _ hs, hline], by rw [readyTrace_one_add _ hs, hready], by rwa [run_one_add n hs]⟩

/-! ### The pulses of a trace -/

/-- A low level ends the pulse before it, if there is one, and what follows is read afresh. -/
theorem pulsesAfter_false (n : Nat) (ls : List Level) :
    pulsesAfter n (false :: ls) = pulsesAfter n [] ++ pulsesAfter 0 ls := by
  cases n <;> rfl

theorem pulsesAfter_highs (n k : Nat) (ls : List Level) :
    pulsesAfter n (List.replicate k true ++ ls) = pulsesAfter (n + k) ls := by
  induction k generalizing n with
  | zero => rfl
  | succ k ih =>
    rw [List.replicate_succ, List.cons_append, pulsesAfter, ih, Nat.add_right_comm, Nat.add_assoc]

theorem pulses_lows (k : Nat) (ls : List Level) : pulses (List.replicate k false ++ ls) = pulses ls := by
  induction k with
  | zero => rfl
  | succ k ih => exact ih

/-- A cell is one pulse of `TH(b)` cycles; its low half keeps it apart from the next (R9, R12). -/
theorem pulses_cell (p : Profile) (b : Bool) (ls : List Level) :
    pulses (cell p b ++ ls) = highTime p b :: pulses ls := by
  obtain ⟨h, hh⟩ := Nat.exists_eq_add_of_le' (highTime_pos p b)
  obtain ⟨l, hl⟩ := Nat.exists_eq_add_of_le' (lowTime_pos p b)
  calc pulses (cell p b ++ ls)
      = pulsesAfter (h + 1) (List.replicate (l + 1) false ++ ls) := by
        rw [cell, hh, hl, List.append_assoc, pulses, pulsesAfter_highs, Nat.zero_add]
    _ = (h + 1) :: pulses (List.replicate l false ++ ls) := rfl
    _ = highTime p b :: pulses ls := by rw [pulses_lows, hh]

theorem pulses_cells (p : Profile) (bs : List Bool) : pulses (bs.flatMap (cell p)) = bs.map (highTime p) := by
  induction bs with
  | nil => rfl
  | cons b bs ih => rw [List.flatMap_cons, pulses_cell, ih, List.map_cons]

/-- The pulses of a command's wave are those of its bits, in order (R38); `LATCH` has none. -/
theorem pulses_wave (p : Profile) (c : Instr) : pulses (wave p c) = (commandBits c).map (highTime p) := by
  cases c with
  | bit b => simpa [wave, commandBits] using pulses_cells p [b]
  | byte v => exact pulses_cells p (bitsOf v)
  | latch => simpa [wave, commandBits, pulses, pulsesAfter] using pulses_lows p.tres []
  | reserved => rfl

/-- Where constraint 2 of R7 holds the width of a bit's pulse reads as that bit. -/
theorem readBits_of_pulses {p : Profile} {trace : List Level} {bs : List Bool} (hp : p.ordered = true)
    (h : pulses trace = bs.map (highTime p)) : readBits p trace = some (bs.map some) := by
  have hlt := Profile.ordered_eq_true.mp hp
  rw [readBits, if_pos hp, h, List.map_map]
  refine congrArg some (List.map_congr_left fun b _ => ?_)
  cases b with
  | false => simp [highTime, hlt.ne]
  | true => simp [highTime]

/-! ### The pulses of a run -/

theorem safeRun_one_add {s t : State} (k : Nat) (h : step s = .next t) :
    safeRun (k + 1) s = true ↔ s.hostKeepsDuties = true ∧ safeRun k t = true := by
  simp [safeRun, observe_one_add _ k h]

/-- The bits of the commands accepted in the first `k` cycles, in order. -/
def acceptedBits (k : Nat) (s : State) : List Bool := ((observe State.accepted k s).filterMap id).flatMap commandBits

theorem acceptedBits_one_add {s t : State} (k : Nat) (h : step s = .next t) :
    acceptedBits (k + 1) s = s.accepted.elim [] commandBits ++ acceptedBits k t := by
  rw [acceptedBits, observe_one_add _ k h]
  cases s.accepted <;> rfl

theorem accepted_of_arm_ne_start {s : State} (h : ∀ i, s.arm ≠ .start i) : s.accepted = none :=
  Option.eq_none_iff_forall_ne_some.mpr fun i hi => h i (accepted_eq_some.mp hi)

/-- One edge of a dutiful host: a ready block goes on to the wave of the command it accepts, if any, and one that is
not ready accepts none and plays on. No command is ever cut (R42, R150). -/
theorem pending_step_cases {s t : State} (h : s.Inv) (hduty : s.hostKeepsDuties = true) (hs : step s = .next t) :
    (s.regs.done = true ∧ t.regs.pending s.profile = s.accepted.elim [] (wave s.profile)) ∨
    (s.regs.done = false ∧ s.accepted = none ∧ t.regs.pending s.profile = (s.regs.pending s.profile).tail) := by
  obtain ⟨hr, ht⟩ | ⟨hr, hd, hv, hx⟩ | ⟨hr, hd, hv, ht⟩ | ⟨hr, hd, ha⟩ := step_cases_of_inputs hs
  · have hacc : s.accepted = none := accepted_of_arm_ne_start (by simp [State.arm, armFor_of_rst hr])
    have hidle : s.regs.phase = .idle := by simpa [State.hostKeepsDuties, hacc, hr, Registers.busy] using hduty
    exact .inl ⟨done_of_idle hidle, by simp [hacc, ht]⟩
  · have hacc : s.accepted = some (decode s.inputs.word) := accepted_eq_some.mpr (armFor_start hr hd hv)
    obtain ⟨-, hw⟩ := pending_exec (s := s.afterHost) (rem_eq_zero_of_done h hd) hx
    exact .inl ⟨hd, by simpa [hacc] using hw⟩
  · have hacc : s.accepted = none := accepted_of_arm_ne_start (by simp [State.arm, armFor_toIdle hr hd hv])
    exact .inl ⟨hd, by simp [hacc, ht, pending_toIdle _ (rem_eq_zero_of_done h hd)]⟩
  · have hacc : s.accepted = none := accepted_of_arm_ne_start (by simp [State.arm, armFor_advance hr hd])
    exact .inr ⟨hd, hacc, pending_advance hd ha⟩

theorem dout_of_done {p : Profile} {r : Registers} (h : Invariants p r) (hd : r.done = true) : r.dout = false := by
  obtain ⟨hdout, -, -, -⟩ := h
  by_contra hhigh
  simp [not_done_of_high (hdout.mp (by simpa using hhigh))] at hd

/-- A ready block has at most one low level still to come, which ends a pulse as the end of the trace does. -/
theorem pulsesAfter_pending_of_done {p : Profile} {r : Registers} (h : Invariants p r) (hd : r.done = true) (n : Nat) :
    pulsesAfter n (r.pending p) = pulsesAfter n [] := by
  have hlen := (pending_length_le_one h).mpr hd
  have hhead := pending_headD h
  rw [dout_of_done h hd] at hhead
  match hl : r.pending p with
  | [] => rfl
  | [l] =>
    obtain rfl : l = false := by simpa [hl] using hhead
    exact (pulsesAfter_false n []).trans (List.append_nil _)
  | _ :: _ :: _ => simp [hl] at hlen

theorem pending_eq_dout_cons {p : Profile} {r : Registers} (h : Invariants p r) (hd : r.done = false) :
    r.pending p = r.dout :: (r.pending p).tail := by
  have hlen := (pending_length_le_one h).not.mpr (by simp [hd])
  rw [← pending_headD h]
  cases hl : r.pending p with
  | nil => simp [hl] at hlen
  | cons l tail => rfl

/-- The pulses of a dutiful run that ends idle, from any state that meets the invariants and with `n` cycles of a pulse
already on the line: first those of the levels still to come, then those of the bits accepted. -/
theorem pulsesAfter_lineTrace {s t : State} (k n : Nat) (h : s.Inv) (hsafe : safeRun k s = true)
    (hrun : run k s = .next t) (ht : t.regs.phase = .idle) :
    pulsesAfter n (lineTrace k s) =
      pulsesAfter n (s.regs.pending s.profile) ++ (acceptedBits k s).map (highTime s.profile) := by
  induction k generalizing s n with
  | zero =>
    cases hrun
    rw [(pending_eq_nil h).mpr ht]
    exact (List.append_nil _).symm
  | succ k ih =>
    cases hs : step s with
    | fault e => cases e
    | refused e => simp [run, hs] at hrun
    | next u =>
      obtain ⟨hduty, hsafe'⟩ := (safeRun_one_add k hs).mp hsafe
      rw [run_one_add k hs] at hrun
      have ih' (m : Nat) := ih m (step_keeps_inv h hs) hsafe' hrun
      rw [step_profile hs] at ih'
      rw [lineTrace_one_add k hs, acceptedBits_one_add k hs]
      obtain ⟨hd, hpend⟩ | ⟨hd, hacc, hpend⟩ := pending_step_cases h hduty hs
      · have hwave : pulses (s.accepted.elim [] (wave s.profile)) =
            (s.accepted.elim [] commandBits).map (highTime s.profile) := by
          cases s.accepted with
          | none => rfl
          | some c => exact pulses_wave s.profile c
        rw [dout_of_done h hd, pulsesAfter_false, pulsesAfter_pending_of_done h hd, ih' 0, hpend, List.map_append,
          ← hwave, pulses]
      · rw [hacc, pending_eq_dout_cons h hd, ← hpend]
        cases s.regs.dout with
        | true => exact ih' (n + 1)
        | false =>
          rw [pulsesAfter_false, pulsesAfter_false, ih' 0, List.append_assoc]
          rfl

/-! ### The obligations -/

/-- Settles O43: nothing is still to come after reset, so every pulse of the run is that of an accepted bit, and in an
ordered profile its width says which. -/
theorem lineSpellsTheAcceptedCommands : Obligations.LineSpellsTheAcceptedCommands := by
  intro s t k hs hp hsafe hrun ht
  apply readBits_of_pulses hp
  have hpulses := pulsesAfter_lineTrace k 0 (inv_of_afterReset hs) hsafe hrun ht
  rwa [regs_of_afterReset hs, pending_reset] at hpulses

/-- Settles O25: both machines' traces are the ones that the accepted command determines. -/
theorem commandCannotBeDisturbed : Obligations.CommandCannotBeDisturbed := by
  intro s u c hregs hprofile hs hu hc hrs hru
  obtain ⟨hlineS, hreadyS, -⟩ := traces_of_accepted hs hc hrs
  rw [hprofile] at hru
  obtain ⟨hlineU, hreadyU, -⟩ := traces_of_accepted hu hc (hprofile ▸ hru)
  rw [← hprofile, ← hregs] at hlineU hreadyU
  refine ⟨hlineS.trans hlineU.symm, hreadyS.trans hreadyU.symm, ?_⟩
  rw [hlineS, List.length_cons, wave_length]

end Sys2Proof.Machine
end

section
/-! SUPPORT. The encoding statements: the decoder over the two fields of a word, the words of the commands, and what the
first item of a host's script does in its cycle (spec/30_encoding.md R47 to R57). -/

namespace Sys2Proof

/-! ### The two fields of a command word -/

@[simp] theorem opField_wordOf (op : BitVec 2) (d : Byte) : opField (wordOf op d) = op :=
  BitVec.extractLsb'_append_eq_left

@[simp] theorem dataField_wordOf (op : BitVec 2) (d : Byte) : dataField (wordOf op d) = d :=
  BitVec.extractLsb'_append_eq_right

theorem opField_and (w m : CmdWord) : opField (w &&& m) = opField w &&& opField m := BitVec.extractLsb'_and

theorem dataField_and (w m : CmdWord) : dataField (w &&& m) = dataField w &&& dataField m :=
  BitVec.extractLsb'_and

theorem bitOperand_dataField (w : CmdWord) : bitOperand (dataField w) = w.getLsbD 0 := by
  simp [bitOperand, dataField]

/-- A word is its two fields (R47). -/
theorem word_eq_iff {w v : CmdWord} : w = v ↔ opField w = opField v ∧ dataField w = dataField v := by
  constructor
  · rintro rfl
    exact ⟨rfl, rfl⟩
  · rintro ⟨hop, hdata⟩
    rw [← Machine.opField_append_dataField w, ← Machine.opField_append_dataField v, hop, hdata]

theorem op_cases (op : BitVec 2) : op = 0b00#2 ∨ op = 0b01#2 ∨ op = 0b10#2 ∨ op = 0b11#2 := by
  revert op
  decide

/-- The mask of R48 keeps the `op` field and clears the data. -/
theorem and_opMask_eq_iff {w m : CmdWord} (hm : dataField m = 0#8) : w &&& 0x300#10 = m ↔ opField w = opField m := by
  have hop : opField 0x300#10 = BitVec.allOnes 2 := by decide
  have hdata : dataField 0x300#10 = 0#8 := by decide
  rw [word_eq_iff, opField_and, dataField_and, hop, hdata, hm, BitVec.and_allOnes, BitVec.and_zero]
  exact and_iff_left rfl

/-! ### The decoder, by the value of the `op` field (R55) -/

theorem decode_eq_bit {w : CmdWord} {b : Bool} :
    decode w = .bit b ↔ opField w = 0b00#2 ∧ bitOperand (dataField w) = b := by
  obtain h | h | h | h := op_cases (opField w) <;> simp [decode, h]

theorem decode_eq_byte {w : CmdWord} {v : Byte} : decode w = .byte v ↔ opField w = 0b01#2 ∧ dataField w = v := by
  obtain h | h | h | h := op_cases (opField w) <;> simp [decode, h, byteOperand]

theorem decode_eq_latch {w : CmdWord} : decode w = .latch ↔ opField w = 0b10#2 := by
  obtain h | h | h | h := op_cases (opField w) <;> simp [decode, h]

theorem decode_eq_reserved {w : CmdWord} : decode w = .reserved ↔ opField w = 0b11#2 := by
  obtain h | h | h | h := op_cases (opField w) <;> simp [decode, h]

/-- The four rows of R48 by name: a word stands in the row of its `op` field. -/
theorem mnemonic_decode (w : CmdWord) :
    ((decode w).mnemonic = "BIT" ↔ opField w = 0b00#2) ∧ ((decode w).mnemonic = "BYTE" ↔ opField w = 0b01#2) ∧
    ((decode w).mnemonic = "LATCH" ↔ opField w = 0b10#2) ∧ ((decode w).mnemonic = "RESERVED" ↔ opField w = 0b11#2) := by
  obtain h | h | h | h := op_cases (opField w) <;> simp [decode, h, Instr.mnemonic]

theorem decodeTableWord_eq_some {nbits w : Nat} {i : Instr} :
    decodeTableWord nbits w = some i ↔ w < 1024 ∧ decode (BitVec.ofNat 10 w) = i := by
  by_cases h : w < 1024 <;> simp [decodeTableWord, decodeNat, h]

/-! ### The encoder (R56) -/

@[simp] theorem decode_encode (i : Instr) : decode (encode i) = i := by
  cases i with
  | bit b => cases b <;> rfl
  | byte v => exact decode_eq_byte.mpr ⟨opField_wordOf _ _, dataField_wordOf _ _⟩
  | latch => rfl
  | reserved => rfl

theorem encode_bit (b : Bool) : encode (.bit b) = BitVec.ofNat 10 (0x000 + b.toNat) := by
  cases b <;> rfl

theorem encode_byte (v : Byte) : encode (.byte v) = BitVec.ofNat 10 (0x100 + v.toNat) := by
  apply BitVec.eq_of_toNat_eq
  have hv : v.toNat < 2 ^ 8 := v.isLt
  have happend : (encode (.byte v)).toNat = 1 <<< 8 + v.toNat := by
    rw [Nat.shiftLeft_add_eq_or_of_lt hv]
    exact BitVec.toNat_append _ _
  rw [happend, BitVec.toNat_ofNat]
  omega

/-- A `BIT` word agrees with its encoding on the `op` bits and on bit 0, the ones it reads (R49, R54). -/
theorem and_bitMask_eq_encode {w : CmdWord} {b : Bool} :
    w &&& 0x301#10 = encode (.bit b) ↔ opField w = 0b00#2 ∧ bitOperand (dataField w) = b := by
  have hop : opField 0x301#10 = BitVec.allOnes 2 := by decide
  have hdata : dataField 0x301#10 = 1#8 := by decide
  have hencode : opField (encode (.bit b)) = 0b00#2 ∧ dataField (encode (.bit b)) = (BitVec.ofBool b).setWidth 8 := by
    cases b <;> decide
  have hbit : ∀ x y : Bool, (BitVec.ofBool x).setWidth 8 = (BitVec.ofBool y).setWidth 8 ↔ x = y := by decide
  rw [word_eq_iff, opField_and, dataField_and, hop, hdata, hencode.1, hencode.2, BitVec.and_allOnes,
    BitVec.and_one_eq_setWidth_ofBool_getLsbD, hbit, bitOperand]

/-- A `BYTE` word has no ignored bit (R50). -/
theorem and_byteMask_eq_encode {w : CmdWord} {v : Byte} :
    w &&& 0x3FF#10 = encode (.byte v) ↔ opField w = 0b01#2 ∧ dataField w = v := by
  have hmask : w &&& 0x3FF#10 = w := BitVec.and_allOnes
  rw [hmask, word_eq_iff, encode, opField_wordOf, dataField_wordOf]

/-- The words of a command are those that are its encoding once the bits it ignores are cleared (R54). -/
theorem decode_eq_iff_and_readMask_eq {i : Instr} {w : CmdWord} : decode w = i ↔ w &&& i.readMask = encode i := by
  cases i with
  | bit b => exact decode_eq_bit.trans and_bitMask_eq_encode.symm
  | byte v => exact decode_eq_byte.trans and_byteMask_eq_encode.symm
  | latch => exact decode_eq_latch.trans (and_opMask_eq_iff (m := 0x200#10) (by decide)).symm
  | reserved => exact decode_eq_reserved.trans (and_opMask_eq_iff (m := 0x300#10) (by decide)).symm

end Sys2Proof

namespace Sys2Proof.Machine

/-! ### The host's move of a cycle -/

/-- `afterHost` from what `settle` finds: the Strand it leaves, and what is left of the action before the rest. -/
theorem afterHost_of_settle {s : State} {st : Strand} {a : PortAction} {rest : List HostAction}
    (h : settle s.strand s.script = (st, some (a, rest))) :
    s.afterHost = { s with strand := st, script := (a.after s.regs.cmdReady).toList.map .port ++ rest } := by
  have hscript : s.nextScript = (a.after s.regs.cmdReady).toList.map .port ++ rest := by
    cases ha : a.after s.regs.cmdReady with
    | none => exact nextScript_of_settle_done h ha
    | some a' => exact nextScript_of_settle_more h ha
  rw [State.afterHost, nextStrand_of_settle h, hscript]

/-- The host's move sees of the Strand and the script only what `settle` makes of them. -/
theorem hostMove_of_settle_eq {s : State} {st : Strand} {script : List HostAction}
    (h : settle s.strand s.script = settle st script) :
    s.inputs = State.inputs { s with strand := st, script := script } ∧
      s.afterHost = State.afterHost { s with strand := st, script := script } := by
  simp [State.inputs, State.afterHost, State.nextStrand, State.nextScript, h]

/-- An action that takes a cycle has it, when it is the first item of the script. -/
theorem hostMove_of_port {s : State} {a : PortAction} {rest : List HostAction} (h : s.script = .port a :: rest)
    (ha : a.takesNoCycle = false) :
    s.inputs = a.inputs ∧
      s.afterHost = { s with script := (a.after s.regs.cmdReady).toList.map .port ++ rest } := by
  have hsettle : settle s.strand s.script = (s.strand, some (a, rest)) := h ▸ settle_port s.strand rest ha
  exact ⟨inputs_of_settle hsettle, afterHost_of_settle hsettle⟩

/-- A line of length 0 leaves its cycle to the rest of the script. -/
theorem hostMove_of_noCycle {s : State} {a : PortAction} {rest : List HostAction} (h : s.script = .port a :: rest)
    (ha : a.takesNoCycle = true) :
    s.inputs = State.inputs { s with script := rest } ∧ s.afterHost = State.afterHost { s with script := rest } :=
  hostMove_of_settle_eq (h ▸ settle_noCycle s.strand rest ha)

/-- A call that sends nothing leaves its cycle to the rest of the script, with the Strand it wrote (log 17). -/
theorem hostMove_of_silent_call {s : State} {c : HostCall} {rest : List HostAction} (h : s.script = .call c :: rest)
    (hc : c.actions s.strand = []) :
    s.inputs = State.inputs { s with strand := c.strandAfter s.strand, script := rest } ∧
      s.afterHost = State.afterHost { s with strand := c.strandAfter s.strand, script := rest } :=
  hostMove_of_settle_eq (h ▸ settle_silent_call s.strand rest hc)

/-- The first action of a call that sends something has the cycle in which the call is reached (log 17). -/
theorem hostMove_of_call {s : State} {c : HostCall} {rest : List HostAction} {a : PortAction} {more : List PortAction}
    (h : s.script = .call c :: rest) (hc : c.actions s.strand = a :: more) :
    s.inputs = a.inputs ∧
      s.afterHost = { s with
        strand := c.strandAfter s.strand,
        script := (((a.after s.regs.cmdReady).toList ++ more).map .port) ++ rest } := by
  have hsettle : settle s.strand s.script = (c.strandAfter s.strand, some (a, more.map .port ++ rest)) :=
    h ▸ settle_call s.strand rest hc
  refine ⟨inputs_of_settle hsettle, ?_⟩
  rw [afterHost_of_settle hsettle, List.map_append, List.append_assoc]

/-! ### Acceptance and refusal -/

/-- When an edge accepts a command, and which (R64, R65). -/
theorem arm_eq_start {s : State} {i : Instr} :
    s.arm = .start i ↔
      s.inputs.rst = false ∧ s.regs.done = true ∧ s.inputs.valid = true ∧ decode s.inputs.word = i := by
  obtain ⟨hr, ha⟩ | ⟨hr, hd, hv, ha⟩ | ⟨hr, hd, hv, ha⟩ | ⟨hr, hd, ha⟩ := armFor_cases s.regs s.inputs <;>
    simp [State.arm, *]

/-- A ready block accepts the word presented in the cycle. -/
theorem arm_of_presenting {s : State} {w : CmdWord} (hd : s.regs.done = true)
    (h : s.inputs = Inputs.presenting w) : s.arm = .start (decode w) :=
  arm_eq_start.mpr (by simp [h, hd])

/-- A ready block accepts, in the cycle in which the call is reached, the command of a call that is one command. -/
theorem accepted_of_call {s : State} {c : HostCall} {rest : List HostAction} {i : Instr}
    (h : s.script = .call c :: rest) (hd : s.regs.done = true)
    (hc : c.actions s.strand = [.present (encode i)]) : s.accepted = some i := by
  have hin : s.inputs = Inputs.presenting (encode i) := (hostMove_of_call h hc).1
  rw [accepted_eq_some, arm_of_presenting hd hin, decode_encode]

theorem exec_eq_reservedOp {i : Instr} {s : State} : exec i s = .refused .reservedOp ↔ i = .reserved := by
  cases i <;> simp [exec, execBit, execByte, execLatch, execReserved]

/-- Of the four arms only `start` can answer the refusal of the reserved operation (R53). -/
theorem step_eq_reservedOp {s : State} : step s = .refused .reservedOp ↔ s.arm = .start .reserved := by
  cases ha : s.arm with
  | reset => simp [step_of_reset ha]
  | start i => simp [step_of_start ha, exec_eq_reservedOp]
  | toIdle => simp [step_of_toIdle ha]
  | advance => cases hr : s.regs.advance s.profile <;> simp [step, ha, advanceArm, hr]

/-! ### A word placed on the port (log 12) -/

theorem presentNext_done (s : State) (w : Nat) : (s.presentNext w).regs.done = true := by
  cases hd : s.regs.done
  · have hidle : s.regs.toIdle.done = true := done_of_idle rfl
    simp [State.presentNext, hd, hidle]
  · simp [State.presentNext, hd]

/-- The script, with a command word placed before it. -/
theorem presentNext_script {s : State} {w : Nat} (h : w < 1024) :
    (s.presentNext w).script = .port (.present (BitVec.ofNat 10 w)) :: s.script := by
  simp [State.presentNext, h]

/-! ### The obligations -/

/-- Settles O3: both sides of the equivalence say the same of the word's two fields, command by command. -/
theorem decodeAndEncodeAgree : Obligations.DecodeAndEncodeAgree :=
  fun i _ => ⟨decode_encode i, decode_eq_iff_and_readMask_eq⟩

/-- Settles O4: the placed state is ready and its first line presents the word, so the edge accepts it, and the host's
move takes that line away again. -/
theorem placedWordIsTheNextCommand : Obligations.PlacedWordIsTheNextCommand := by
  intro s nbits w i h
  obtain ⟨hw, hi⟩ := decodeTableWord_eq_some.mp h
  have hready : (s.presentNext w).regs.done = true := presentNext_done s w
  obtain ⟨hin, hafter⟩ := hostMove_of_port (presentNext_script hw) rfl
  have harm : (s.presentNext w).arm = .start i := hi ▸ arm_of_presenting hready hin
  refine ⟨?_, fun hd => if_pos hd⟩
  rw [State.withFetchWord, step_of_start harm, hafter, Registers.cmdReady, hready]
  rfl

/-- Settles O13: only the start arm refuses so, and it is taken with this command exactly under R53's condition. -/
theorem reservedOperationIsRefused : Obligations.ReservedOperationIsRefused := by
  refine ⟨fun s => exec_eq_reservedOp.mpr rfl, fun s => ?_⟩
  rw [step_eq_reservedOp, arm_eq_start, decode_eq_reserved, Inputs.word, opField_wordOf, Registers.cmdReady]
  exact and_congr_right' and_left_comm

/-- Settles O1: the decoder and the rows of R48 both go by the `op` field. -/
theorem decoderFollowsTheOpField : Obligations.DecoderFollowsTheOpField := by
  intro w
  obtain ⟨hbit, hbyte, hlatch, hreserved⟩ := mnemonic_decode w
  exact ⟨fun h => decode_eq_bit.mpr ⟨h, bitOperand_dataField w⟩, fun h => decode_eq_byte.mpr ⟨h, rfl⟩,
    decode_eq_latch.mpr, decode_eq_reserved.mpr,
    hbit.trans (and_opMask_eq_iff (m := 0x000#10) (by decide)).symm,
    hbyte.trans (and_opMask_eq_iff (m := 0x100#10) (by decide)).symm,
    hlatch.trans (and_opMask_eq_iff (m := 0x200#10) (by decide)).symm,
    hreserved.trans (and_opMask_eq_iff (m := 0x300#10) (by decide)).symm⟩

/-- Settles O2, word by word. -/
theorem wordsWrittenOutDecode : Obligations.WordsWrittenOutDecode :=
  ⟨rfl, rfl, rfl, rfl, rfl, rfl, rfl, rfl, rfl⟩

/-- Settles O51: the expansions of R57, with the words as R56 writes them. -/
theorem operationsExpandToTheirCommands : Obligations.OperationsExpandToTheirCommands := by
  refine ⟨fun _ b => by rw [← encode_bit]; rfl, fun _ v => by rw [← encode_byte]; rfl, fun _ => rfl,
    fun st c => ?_, fun _ _ _ => rfl, fun _ => rfl, ?_⟩
  · simp only [← encode_byte]
    refine ⟨?_, ?_, ?_⟩ <;> intro horder <;>
      simp [HostCall.actions, Strand.sendPixel, Strand.pixelBytes, Strand.scaled, wireOrder, horder]
  · rintro st c (rfl | ⟨_, rfl⟩ | rfl | ⟨_, rfl⟩ | rfl | ⟨_, _, _, _, rfl⟩) <;> rfl

/-- Settles O52: the words of R56, then one kind of line at a time. -/
theorem programLinesOnThePorts : Obligations.ProgramLinesOnThePorts := by
  refine ⟨encode_bit, encode_byte, rfl, fun s rest => ⟨fun w h => ?_, fun k h => ?_, fun k h => ?_, fun h => ?_,
    fun h => ?_, fun i h => hostMove_of_port h rfl⟩⟩
  · obtain ⟨hin, hafter⟩ := hostMove_of_port h rfl
    rw [hin, hafter]
    refine ⟨rfl, rfl, opField_append_dataField w, ?_⟩
    cases s.regs.cmdReady <;> rfl
  · obtain ⟨hin, hafter⟩ := hostMove_of_port h rfl
    rw [hin, hafter]
    refine ⟨rfl, rfl, ?_⟩
    cases s.regs.cmdReady <;> cases k <;> rfl
  · obtain ⟨hin, hafter⟩ := hostMove_of_port h rfl
    rw [hin, hafter]
    refine ⟨rfl, rfl, ?_⟩
    cases k <;> rfl
  · obtain h | h := h
    · exact hostMove_of_noCycle h rfl
    · exact hostMove_of_noCycle h rfl
  · obtain ⟨hin, hafter⟩ := hostMove_of_port h rfl
    exact ⟨congrArg Inputs.rst hin, hafter⟩

/-- Settles O54: the host's move of a script that begins with a call, and acceptance of a word a ready block sees. -/
theorem callsTakeNoCycleOfTheirOwn : Obligations.CallsTakeNoCycleOfTheirOwn := by
  refine fun s c rest h => ⟨hostMove_of_silent_call h, fun _ _ => hostMove_of_call h, fun hd => ⟨?_, ?_, ?_⟩⟩
  · rintro b rfl
    exact accepted_of_call h hd rfl
  · rintro v rfl
    exact accepted_of_call h hd rfl
  · rintro rfl
    exact accepted_of_call h hd rfl

end Sys2Proof.Machine
end

section
/-! SUPPORT. The sequencer statements: the signals, the four arms of an edge, the transition table, and what the host's
lines put on the line of a ready block (spec/40_sequencer.md R63 to R71). -/

namespace Sys2Proof

open Machine

/-! ### One line of a host's script -/

theorem Instr.ne_reserved_of_wf {c : Instr} (h : c.wf = true) : c ≠ .reserved := by
  rintro rfl
  cases h

theorem takesNoCycle_of_mem_actions {st : Strand} {c : HostCall} {a : PortAction} (h : a ∈ c.actions st) :
    a.takesNoCycle = false := by
  have hpixel (x : Colour) (hx : a ∈ st.sendPixel x) : a.takesNoCycle = false := by
    obtain ⟨v, -, rfl⟩ := List.mem_map.mp hx
    rfl
  cases c with
  | sendPixel x => exact hpixel x h
  | sendPixelPacked index color => exact hpixel _ h
  | sendFrame colours =>
    obtain h | h := List.mem_append.mp h
    · obtain ⟨x, -, hx⟩ := List.mem_flatMap.mp h
      exact hpixel x hx
    · rw [List.mem_singleton.mp h]
      rfl
  | _ => simp_all [HostCall.actions, PortAction.takesNoCycle]

/-- What is left of a line is itself, or a gap one cycle shorter; a gap of length 1 leaves nothing. -/
theorem takesNoCycle_of_after {a b : PortAction} {ready : Bool} (ha : a.takesNoCycle = false)
    (h : a.after ready = some b) : b.takesNoCycle = false := by
  cases a with
  | raw i => cases h
  | rst => cases h
  | present w =>
    cases ready <;> cases h
    rfl
  | idle k =>
    cases ready with
    | false => exact Option.some.inj h ▸ ha
    | true =>
      obtain ⟨hk, rfl⟩ : 1 < k ∧ .idle (k - 1) = b := by simpa [PortAction.after] using h
      simpa [PortAction.takesNoCycle] using Nat.sub_ne_zero_of_lt hk
  | wait k =>
    obtain ⟨hk, rfl⟩ : 1 < k ∧ .wait (k - 1) = b := by simpa [PortAction.after] using h
    simpa [PortAction.takesNoCycle] using Nat.sub_ne_zero_of_lt hk

/-- A line that waits while the block is not ready: `IDLE` and a presented word (R56). -/
def PortAction.Waits (a : PortAction) : Prop := a.after false = some a

theorem waits_idle (k : Nat) : (PortAction.idle k).Waits := rfl

theorem waits_present (w : CmdWord) : (PortAction.present w).Waits := rfl

theorem waits_cases {a : PortAction} (h : a.Waits) : (∃ k, a = .idle k) ∨ ∃ w, a = .present w := by
  cases a with
  | raw i => cases h
  | rst => cases h
  | idle k => exact .inl ⟨k, rfl⟩
  | present w => exact .inr ⟨w, rfl⟩
  | wait k =>
    obtain ⟨hk, hsame⟩ : 1 < k ∧ k - 1 = k := by simpa [PortAction.Waits, PortAction.after] using h
    omega

theorem inputs_rst_of_waits {a : PortAction} (h : a.Waits) : a.inputs.rst = false := by
  obtain ⟨k, rfl⟩ | ⟨w, rfl⟩ := waits_cases h <;> rfl

theorem waits_of_after {a b : PortAction} {ready : Bool} (ha : a.Waits) (h : a.after ready = some b) : b.Waits := by
  cases ready with
  | false => exact Option.some.inj (ha.symm.trans h) ▸ ha
  | true =>
    obtain ⟨k, rfl⟩ | ⟨w, rfl⟩ := waits_cases ha
    · obtain ⟨-, rfl⟩ : 1 < k ∧ .idle (k - 1) = b := by simpa [PortAction.after] using h
      exact waits_idle _
    · cases h

end Sys2Proof

namespace Sys2Proof.Machine

/-! ### The arms of one edge -/

/-- The command that an edge accepts, with R64's reading of the ports. -/
theorem accepted_eq_some_iff {s : State} {i : Instr} :
    s.accepted = some i ↔
      s.inputs.rst = false ∧ s.inputs.valid = true ∧ s.regs.done = true ∧ decode s.inputs.word = i :=
  accepted_eq_some.trans (arm_eq_start.trans (and_congr_right' and_left_comm))

theorem accepted_eq_none_of_not_valid {s : State} (h : s.inputs.valid = false) : s.accepted = none :=
  Option.eq_none_iff_forall_ne_some.mpr fun i hi => by
    obtain ⟨-, hv, -, -⟩ := accepted_eq_some_iff.mp hi
    simp [h] at hv

/-- Where no command is accepted, `rst` and the registers alone choose the arm (R64, R65). -/
theorem arm_of_accepted_eq_none {s : State} (h : s.accepted = none) :
    s.arm = if s.inputs.rst then .reset else if s.regs.done then .toIdle else .advance := by
  obtain ⟨hr, ha⟩ | ⟨hr, hd, hv, ha⟩ | ⟨hr, hd, hv, ha⟩ | ⟨hr, hd, ha⟩ := armFor_cases s.regs s.inputs
  · exact ha.trans (by simp [hr])
  · rw [accepted_eq_some_iff.mpr ⟨hr, hv, hd, rfl⟩] at h
    cases h
  · exact ha.trans (by simp [hr, hd])
  · exact ha.trans (by simp [hr, hd])

/-- `to_idle` changes nothing of an idle block that meets the invariants (R68). -/
theorem toIdle_of_idle {p : Profile} {r : Registers} (h : Invariants p r) (hp : r.phase = .idle) : r.toIdle = r := by
  have hdout : r.dout = false := dout_of_done h (done_of_idle hp)
  obtain ⟨-, ⟨hidle, -⟩, -⟩ := h
  rw [Registers.toIdle, Registers.enterPhase, Phase.level, ← hp, ← hidle hp, ← hdout]

/-- Whatever arm an edge performs, the line takes the level of the phase entered (R69). -/
theorem step_dout_iff {s t : State} (h : step s = .next t) : t.regs.dout = true ↔ t.regs.phase = .high := by
  have henter (r : Registers) (ph : Phase) (k : Nat) :
      (r.enterPhase ph k).dout = true ↔ (r.enterPhase ph k).phase = .high := Phase.level_eq_true ph
  obtain ⟨-, ⟨-, ht⟩ | ⟨i, -, hx⟩ | ⟨-, ht⟩ | ⟨-, ha⟩⟩ := step_cases h
  · simp [ht, Registers.reset]
  · obtain ⟨b, -, rfl⟩ | ⟨v, -, rfl⟩ | ⟨-, rfl⟩ := exec_cases hx <;> exact henter _ _ _
  · exact ht ▸ henter _ _ _
  · obtain ⟨-, ht⟩ | ⟨-, -, ht⟩ | ⟨-, -, ht⟩ := advance_cases ha <;> exact ht ▸ henter _ _ _

/-- The rows of R70 that leave a block where a command can be taken: the command's first phase, or `IDLE`. -/
def State.TakenTo (s t : State) : Prop :=
  (∃ c b rest, s.accepted = some c ∧ commandBits c = b :: rest ∧
    t.regs.phase = .high ∧ t.regs.cnt = highTime s.profile b) ∨
  (s.accepted = some .latch ∧ t.regs.phase = .reset ∧ t.regs.cnt = s.profile.tres) ∨
  (s.accepted = none ∧ t.regs.phase = .idle ∧ t.regs.cnt = 0)

theorem takenTo_of_done {s t : State} (hr : s.inputs.rst = false) (hd : s.regs.done = true)
    (h : step s = .next t) : s.TakenTo t := by
  obtain ⟨hr', -⟩ | ⟨-, -, hv, hx⟩ | ⟨-, -, hv, ht⟩ | ⟨-, hd', -⟩ := step_cases_of_inputs h
  · simp [hr] at hr'
  · have hacc : s.accepted = some (decode s.inputs.word) := accepted_eq_some_iff.mpr ⟨hr, hv, hd, rfl⟩
    obtain ⟨b, hi, rfl⟩ | ⟨v, hi, rfl⟩ | ⟨hi, rfl⟩ := exec_cases hx
    · exact .inl ⟨.bit b, b, [], hacc.trans (congrArg some hi), rfl, rfl, rfl⟩
    · exact .inl ⟨.byte v, _, _, hacc.trans (congrArg some hi), bitsOf_eq_cons v, rfl, rfl⟩
    · exact .inr (.inl ⟨hacc.trans (congrArg some hi), rfl, rfl⟩)
  · exact .inr (.inr ⟨accepted_eq_none_of_not_valid hv, by simp [ht, Registers.toIdle]⟩)
  · simp [hd] at hd'

theorem advance_of_not_done {s t : State} (hr : s.inputs.rst = false) (hd : s.regs.done = false)
    (h : step s = .next t) : s.regs.advance s.profile = some t.regs := by
  obtain ⟨hr', -⟩ | ⟨-, hd', -⟩ | ⟨-, hd', -⟩ | ⟨-, -, ha⟩ := step_cases_of_inputs h
  · simp [hr] at hr'
  · simp [hd] at hd'
  · simp [hd] at hd'
  · exact ha

/-! ### The lines a host has still to do -/

/-- The lines of a host's script that take a cycle, in order, with its calls expanded (R56, R57). -/
def hostLines (st : Strand) (script : List HostAction) : List PortAction :=
  (expand st script).filter fun a => !a.takesNoCycle

/-- What the host still puts on the ports, from this cycle on. -/
def State.outstanding (s : State) : List PortAction := hostLines s.strand s.script

/-- Lines that all take a cycle, put before a script, come before its lines. -/
theorem hostLines_ports_append (st : Strand) {acts : List PortAction} (rest : List HostAction)
    (h : ∀ a ∈ acts, a.takesNoCycle = false) :
    hostLines st (acts.map .port ++ rest) = acts ++ hostLines st rest := by
  rw [hostLines, expand_ports_append, List.filter_append, List.filter_eq_self.mpr (by simpa using h), hostLines]

/-- Running a script to its next action finds the first of its lines, if it has one. -/
theorem hostLines_eq_settle (st : Strand) (script : List HostAction) :
    hostLines st script =
      (settle st script).2.elim [] fun x => x.1 :: hostLines (settle st script).1 x.2 := by
  induction script generalizing st with
  | nil => rfl
  | cons x script ih =>
    cases x with
    | port a =>
      cases ha : a.takesNoCycle with
      | true => rw [settle_noCycle st script ha, ← ih]; simp [hostLines, ha]
      | false => simp [settle_port st script ha, hostLines, ha]
    | call c =>
      cases hc : c.actions st with
      | nil => rw [settle_silent_call st script hc, ← ih]; simp [hostLines, hc]
      | cons a more =>
        have hmem (b : PortAction) (hb : b ∈ a :: more) : b.takesNoCycle = false :=
          takesNoCycle_of_mem_actions (hc ▸ hb)
        rw [settle_call st script hc]
        simp only [Option.elim_some]
        rw [hostLines_ports_append _ _ fun b hb => hmem b (List.mem_cons_of_mem a hb), ← List.cons_append,
          ← hostLines_ports_append _ _ hmem]
        simp [hostLines, hc]

theorem hostMove_of_outstanding_nil {s : State} (h : s.outstanding = []) :
    s.inputs = Inputs.nothing ∧ s.afterHost.outstanding = [] := by
  rw [State.outstanding, hostLines_eq_settle] at h
  rcases hx : settle s.strand s.script with ⟨st, _ | ⟨a, rest⟩⟩
  · exact ⟨inputs_of_settled hx, by simp [State.outstanding, nextScript_of_settled hx, hostLines]⟩
  · simp [hx] at h

/-- The host's move does the first of its lines (R56). -/
theorem hostMove_of_outstanding_cons {s : State} {a : PortAction} {rest : List PortAction}
    (h : s.outstanding = a :: rest) :
    s.inputs = a.inputs ∧ s.afterHost.outstanding = (a.after s.regs.cmdReady).toList ++ rest := by
  have ha : a.takesNoCycle = false := by
    have hmem : a ∈ s.outstanding := h ▸ List.mem_cons_self
    simpa using (List.mem_filter.mp hmem).2
  rw [State.outstanding, hostLines_eq_settle] at h
  rcases hx : settle s.strand s.script with ⟨st, _ | ⟨b, script⟩⟩
  · simp [hx] at h
  · obtain ⟨rfl, rfl⟩ : b = a ∧ hostLines st script = rest := by simpa [hx] using h
    refine ⟨inputs_of_settle hx, ?_⟩
    rw [afterHost_of_settle hx, State.outstanding]
    exact hostLines_ports_append st script fun c hc => takesNoCycle_of_after ha (Option.mem_toList.mp hc)

theorem outstanding_of_step {s t : State} (h : step s = .next t) : t.outstanding = s.afterHost.outstanding := by
  rw [State.outstanding, step_strand h, step_script h, State.outstanding, afterHost_strand, afterHost_script]

/-! ### A host that waits for the block -/

/-- Every line the host has still to do waits for the block. -/
def State.HostWaits (s : State) : Prop := ∀ a ∈ s.outstanding, a.Waits

theorem inputs_rst_of_hostWaits {s : State} (h : s.HostWaits) : s.inputs.rst = false := by
  cases hl : s.outstanding with
  | nil => rw [(hostMove_of_outstanding_nil hl).1, nothing_rst]
  | cons a rest =>
    rw [(hostMove_of_outstanding_cons hl).1]
    exact inputs_rst_of_waits (h a (hl ▸ List.mem_cons_self))

theorem hostWaits_of_step {s t : State} (h : s.HostWaits) (hs : step s = .next t) : t.HostWaits := by
  intro b hb
  rw [outstanding_of_step hs] at hb
  cases hl : s.outstanding with
  | nil => simp [(hostMove_of_outstanding_nil hl).2] at hb
  | cons a rest =>
    rw [State.HostWaits, hl] at h
    rw [(hostMove_of_outstanding_cons hl).2] at hb
    obtain hb | hb := List.mem_append.mp hb
    · exact waits_of_after (h a List.mem_cons_self) (Option.mem_toList.mp hb)
    · exact h b (List.mem_cons_of_mem a hb)

/-- A host that waits never resets the block. -/
theorem rstLow_of_hostWaits {s : State} (k : Nat) (h : s.HostWaits) : rstLow k s = true := by
  induction k generalizing s with
  | zero => rfl
  | succ k ih => exact rstLow_one_add.mpr ⟨inputs_rst_of_hostWaits h, fun t hs => ih (hostWaits_of_step h hs)⟩

theorem outstanding_of_step_not_ready {s t : State} (h : s.HostWaits) (hready : s.regs.cmdReady = false)
    (hs : step s = .next t) : t.outstanding = s.outstanding := by
  rw [outstanding_of_step hs]
  cases hl : s.outstanding with
  | nil => exact (hostMove_of_outstanding_nil hl).2
  | cons a rest =>
    have ha : a.after false = some a := h a (hl ▸ List.mem_cons_self)
    rw [(hostMove_of_outstanding_cons hl).2, hready, ha]
    rfl

/-- A host that waits does nothing until the block is ready. -/
theorem outstanding_of_run_not_ready {s t : State} (k : Nat) (h : s.HostWaits) (hrun : run k s = .next t)
    (hready : readyTrace k s = List.replicate k false) : t.outstanding = s.outstanding := by
  induction k generalizing s with
  | zero => cases hrun; rfl
  | succ k ih =>
    cases hs : step s with
    | next u =>
      rw [run_one_add k hs] at hrun
      obtain ⟨hnow, hlater⟩ : s.regs.cmdReady = false ∧ readyTrace k u = List.replicate k false := by
        simpa [readyTrace_one_add k hs, List.replicate_succ] using hready
      rw [ih (hostWaits_of_step h hs) hrun hlater, outstanding_of_step_not_ready h hnow hs]
    | fault e => cases e
    | refused e => simp [run, hs] at hrun

/-- While a command plays, a host that waits does nothing after the cycle in which it was accepted. -/
theorem outstanding_of_accepted {s t : State} {c : Instr} (h : s.HostWaits) (hacc : s.accepted = some c)
    (hc : c ≠ .reserved) (hrun : run (commandLen s.profile c) s = .next t) :
    t.outstanding = s.afterHost.outstanding := by
  obtain ⟨u, hx, hplays⟩ := exec_plays_wave s.afterHost hc
  have hs : step s = .next u := (step_of_start (accepted_eq_some.mp hacc)).trans hx
  obtain ⟨n, hn⟩ := Nat.exists_eq_add_of_le' hplays.length_pos
  rw [wave_length, afterHost_profile] at hn
  obtain ⟨-, hready, -⟩ := traces_of_accepted hacc hc (rstLow_of_hostWaits _ h)
  rw [hn] at hrun hready
  rw [run_one_add n hs] at hrun
  rw [readyTrace_one_add (n + 1) hs, readyTrace, observe_add _ n 1 hrun] at hready
  obtain ⟨hnot, -⟩ := List.append_inj (List.cons.inj hready).2 (by simp [observe_length _ n hrun])
  rw [outstanding_of_run_not_ready n (hostWaits_of_step h hs) hrun hnot, outstanding_of_step hs]

/-! ### A ready block and the lines of its host -/

/-- The block meets the invariants and can take a command, and the host has the lines `ls` still to do. -/
structure State.ReadyFor (s : State) (ls : List PortAction) : Prop where
  inv : s.Inv
  done : s.regs.done = true
  lines : s.outstanding = ls

theorem lineTrace_one (s : State) : lineTrace 1 s = [s.regs.dout] := observe_one _ s

/-- The cycle in which two parts of a run meet is the last of the one and the first of the other. -/
theorem lineTrace_add_one_add {s t : State} (j m : Nat) (h : run j s = .next t) :
    lineTrace (j + (m + 1)) s = lineTrace (j + 1) s ++ (lineTrace (m + 1) t).tail := by
  have hparts (k : Nat) : lineTrace (j + k) s = lineTrace j s ++ lineTrace k t := observe_add _ j k h
  rw [hparts, hparts, lineTrace_one, List.append_assoc]
  rfl

/-- With nothing on the port a ready block goes to idle and stays ready; its line is low meanwhile. -/
theorem State.ReadyFor.idle_step {s : State} {ls : List PortAction} (h : s.ReadyFor ls)
    (hin : s.inputs = Inputs.nothing) :
    ∃ t, step s = .next t ∧ t.profile = s.profile ∧ t.ReadyFor s.afterHost.outstanding ∧
      ∀ k, lineTrace (k + 1) s = false :: lineTrace k t := by
  have hs := step_of_toIdle (armFor_toIdle (by rw [hin, nothing_rst]) h.done (by rw [hin, nothing_valid]))
  refine ⟨_, hs, rfl, ⟨step_keeps_inv h.inv hs, rfl, rfl⟩, fun k => ?_⟩
  rw [lineTrace_one_add k hs, dout_of_done h.inv h.done]

/-- A host with nothing left to do leaves a ready block's line low for ever (R68, R71). -/
theorem State.ReadyFor.lineTrace_nil {s : State} (k : Nat) (h : s.ReadyFor []) :
    lineTrace k s = List.replicate k false := by
  induction k generalizing s with
  | zero => rfl
  | succ k ih =>
    obtain ⟨hin, hnext⟩ := hostMove_of_outstanding_nil h.lines
    obtain ⟨t, -, -, ht, hline⟩ := h.idle_step hin
    rw [hline k, ih (hnext ▸ ht), List.replicate_succ]

/-- The line `IDLE g`, where it takes a cycle (R56). -/
def gapLines (g : Nat) : List PortAction := [PortAction.idle g].filter fun a => !a.takesNoCycle

theorem idle_after_ready (g : Nat) : ((PortAction.idle (g + 1)).after true).toList = gapLines g := by
  cases g <;> rfl

/-- A gap of `g` cycles before a ready block (R71). -/
theorem State.ReadyFor.run_gap {s : State} {ls : List PortAction} (g : Nat) (h : s.ReadyFor (gapLines g ++ ls)) :
    ∃ t, run g s = .next t ∧ t.profile = s.profile ∧ t.ReadyFor ls ∧ lineTrace g s = List.replicate g false := by
  induction g generalizing s with
  | zero => exact ⟨s, rfl, rfl, h, rfl⟩
  | succ g ih =>
    obtain ⟨hin, hnext⟩ := hostMove_of_outstanding_cons (a := .idle (g + 1)) (rest := ls) h.lines
    obtain ⟨u, hs, hp, hu, hline⟩ := h.idle_step hin
    have hready : s.regs.cmdReady = true := h.done
    rw [hnext, hready, idle_after_ready] at hu
    obtain ⟨t, hrun, hpt, ht, hgap⟩ := ih hu
    exact ⟨t, (run_one_add g hs).trans hrun, hpt.trans hp, ht,
      by rw [hline, hgap, List.replicate_succ]⟩

/-- A command presented to a ready block by a host that waits: its wave, and the block ready for the next line (R71). -/
theorem State.ReadyFor.run_present {s : State} {c : Instr} {ls : List PortAction}
    (h : s.ReadyFor (.present (encode c) :: ls)) (hc : c ≠ .reserved) (hls : ∀ a ∈ ls, a.Waits) :
    ∃ t, run (commandLen s.profile c) s = .next t ∧ t.profile = s.profile ∧ t.ReadyFor ls ∧
      lineTrace (commandLen s.profile c + 1) s = false :: wave s.profile c := by
  obtain ⟨hin, hnext⟩ := hostMove_of_outstanding_cons h.lines
  have hready : s.regs.cmdReady = true := h.done
  have hacc : s.accepted = some c := by rw [accepted_eq_some, arm_of_presenting h.done hin, decode_encode]
  have hwaits : s.HostWaits := by
    rw [State.HostWaits, h.lines]
    exact List.forall_mem_cons.mpr ⟨waits_present _, hls⟩
  obtain ⟨hline, -, t, hrun, ht⟩ := traces_of_accepted hacc hc (rstLow_of_hostWaits _ hwaits)
  rw [dout_of_done h.inv h.done] at hline
  have hlines : t.outstanding = ls := by
    rw [outstanding_of_accepted hwaits hacc hc hrun, hnext, hready]
    rfl
  have hinv : t.Inv := run_induction (fun _ _ => step_keeps_inv) _ h.inv hrun
  exact ⟨t, hrun, run_profile _ hrun, ⟨hinv, ht, hlines⟩, hline⟩

/-! ### Paced commands -/

/-- The lines of paced commands, gaps of length 0 dropped. -/
def PacedCommands.lines (cs : PacedCommands) : List PortAction :=
  cs.flatMap fun gc => gapLines gc.1 ++ [.present (encode gc.2)]

theorem PacedCommands.lines_cons (g : Nat) (c : Instr) (cs : PacedCommands) :
    PacedCommands.lines ((g, c) :: cs) = gapLines g ++ .present (encode c) :: PacedCommands.lines cs := by
  simp [PacedCommands.lines]

theorem PacedCommands.hostLines_script (st : Strand) (cs : PacedCommands) :
    hostLines st cs.script = PacedCommands.lines cs := by
  induction cs with
  | nil => rfl
  | cons gc cs ih =>
    obtain ⟨g, c⟩ := gc
    have hscript : PacedCommands.script ((g, c) :: cs) =
        [PortAction.idle g].map .port ++ ([PortAction.present (encode c)].map .port ++ PacedCommands.script cs) := rfl
    rw [hscript, hostLines, expand_ports_append, List.filter_append, ← hostLines, ← gapLines,
      hostLines_ports_append st _ (by simp [PortAction.takesNoCycle]), ih, PacedCommands.lines_cons]
    rfl

theorem PacedCommands.waits_of_mem_lines {cs : PacedCommands} {a : PortAction} (h : a ∈ cs.lines) : a.Waits := by
  obtain ⟨gc, -, h⟩ := List.mem_flatMap.mp h
  obtain h | h := List.mem_append.mp h
  · rw [List.mem_singleton.mp (List.mem_filter.mp h).1]
    exact waits_idle gc.1
  · rw [List.mem_singleton.mp h]
    exact waits_present _

/-- The length of paced commands in cycles, gaps and waves. -/
def PacedCommands.len (p : Profile) (cs : PacedCommands) : Nat := (cs.map fun gc => gc.1 + commandLen p gc.2).sum

/-- The trace of paced commands before any ready block that meets the invariants (R71). -/
theorem State.ReadyFor.lineTrace_lines {s : State} {cs : PacedCommands} (k : Nat) (h : s.ReadyFor cs.lines)
    (hwf : cs.wf = true) :
    lineTrace (cs.len s.profile + k + 1) s =
      false :: (PacedCommands.wave s.profile cs ++ List.replicate k false) := by
  induction cs generalizing s with
  | nil => simpa [PacedCommands.len, PacedCommands.wave, List.replicate_succ] using h.lineTrace_nil (k + 1)
  | cons gc cs ih =>
    obtain ⟨g, c⟩ := gc
    obtain ⟨hc, hcs⟩ : c.wf = true ∧ PacedCommands.wf cs = true := by simpa [PacedCommands.wf] using hwf
    rw [PacedCommands.lines_cons] at h
    obtain ⟨t, hrunt, hpt, ht, hgap⟩ := h.run_gap g
    obtain ⟨u, hrunu, hpu, hu, hwave⟩ :=
      ht.run_present (Instr.ne_reserved_of_wf hc) fun _ => PacedCommands.waits_of_mem_lines
    have hrest := ih hu hcs
    rw [hpu, hpt] at hrest
    rw [hpt] at hwave hrunu
    have hlen : PacedCommands.len s.profile ((g, c) :: cs) + k + 1 =
        g + (commandLen s.profile c + (PacedCommands.len s.profile cs + k + 1)) := by
      simp only [PacedCommands.len, List.map_cons, List.sum_cons]
      omega
    have hshift (ls : List Level) :
        List.replicate g false ++ false :: ls = false :: (List.replicate g false ++ ls) := by
      rw [List.append_cons, ← List.replicate_succ', List.replicate_succ, List.cons_append]
    rw [hlen, lineTrace, observe_add _ g _ hrunt, ← lineTrace, ← lineTrace, hgap,
      lineTrace_add_one_add _ _ hrunu, hwave, hrest, List.cons_append, hshift]
    simp [PacedCommands.wave]

/-! ### The obligations -/

/-- Settles O24: the traces of an accepted command, and a command is accepted only where `cmd_ready = 1`. -/
theorem acceptedCommandPlaysItsWave : Obligations.AcceptedCommandPlaysItsWave := by
  intro s c hacc hc hrst
  obtain ⟨-, -, hd, -⟩ := accepted_eq_some_iff.mp hacc
  have hready : s.regs.cmdReady = true := hd
  obtain ⟨hline, htrace, hrun⟩ := traces_of_accepted hacc hc hrst
  exact ⟨hline, hready ▸ htrace, hrun⟩

/-- Settles O40: after reset the block is ready for the host's lines, which are the paced commands. -/
theorem traceOfPacedCommands : Obligations.TraceOfPacedCommands := by
  intro s cs k hs hwf hscript
  have hready : s.ReadyFor cs.lines :=
    ⟨inv_of_afterReset hs, by rw [regs_of_afterReset hs]; rfl,
      by rw [State.outstanding, hscript, PacedCommands.hostLines_script]⟩
  have hlen : 1 + (cs.map fun gc => gc.1 + commandLen s.profile gc.2).sum + k = cs.len s.profile + k + 1 := by
    rw [PacedCommands.len, Nat.add_assoc, Nat.add_comm 1]
  rw [hlen, hready.lineTrace_lines k hwf, List.cons_append]

/-- Settles O12: without acceptance `rst` and the registers choose the arm, and no arm but `start` reads the ports. -/
theorem unacceptedWordsChangeNothing : Obligations.UnacceptedWordsChangeNothing := by
  refine ⟨fun _ _ => accepted_eq_some_iff, fun s u hregs hprofile hrst hs hu t hstep => ?_⟩
  have harm : u.arm = s.arm := by rw [arm_of_accepted_eq_none hs, arm_of_accepted_eq_none hu, hrst, hregs]
  have hp : u.profile = t.profile := hprofile.symm.trans (step_profile hstep).symm
  obtain ⟨-, ⟨ha, ht⟩ | ⟨i, ha, -⟩ | ⟨ha, ht⟩ | ⟨ha, ht⟩⟩ := step_cases hstep
  · exact ⟨_, step_of_reset (harm.trans ha), ht.symm, hp⟩
  · simp [accepted_eq_some.mpr ha] at hs
  · exact ⟨_, step_of_toIdle (harm.trans ha), by rw [withRegs_regs, ht, hregs], hp⟩
  · rw [hregs, hprofile] at ht
    exact ⟨_, step_of_advance (harm.trans ha) ht, rfl, hp⟩

/-- Settles O18: `dout` is the level of the phase entered, so it moves as the phase enters and leaves `HIGH`. -/
theorem lineFollowsThePhaseEntered : Obligations.LineFollowsThePhaseEntered := by
  intro s t hstep
  have ht := step_dout_iff hstep
  refine ⟨ht, fun hs => ⟨?_, ?_⟩⟩
  · rw [← Bool.not_eq_true, hs, ht]
  · rw [← Bool.not_eq_true, hs, ht]

/-- Settles O19, by the phase left: where the block is `done` a command may be taken, elsewhere it advances. -/
theorem transitionTableIsComplete : Obligations.TransitionTableIsComplete := by
  refine ⟨fun s t hr hstep => ?_, fun s t hr hstep => ?_⟩
  · cases hp : s.regs.phase with
    | idle => exact ⟨takenTo_of_done hr (done_of_idle hp) hstep, nofun⟩
    | high =>
      obtain ⟨hlt, ht⟩ | ⟨hcnt, -, ht⟩ | ⟨-, hlow, -⟩ :=
        advance_cases (advance_of_not_done hr (not_done_of_high hp) hstep)
      · simp [hp, ht, hlt, Registers.countDown]
      · simp [ht, hcnt, Registers.fall]
      · simp [hp] at hlow
    | low =>
      refine ⟨?_, nofun⟩
      cases hd : s.regs.done with
      | true =>
        obtain ⟨hcnt, hrem⟩ := (done_of_low hp).mp hd
        exact .inr (.inr ⟨hcnt, hrem, takenTo_of_done hr hd hstep⟩)
      | false =>
        obtain ⟨hlt, ht⟩ | ⟨-, hhigh, -⟩ | ⟨hcnt, -, ht⟩ := advance_cases (advance_of_not_done hr hd hstep)
        · simp [hp, ht, hlt, Registers.countDown]
        · simp [hp] at hhigh
        · have hrem : s.regs.rem ≠ 0 := fun hrem => by simp [(done_of_low hp).mpr ⟨hcnt, hrem⟩] at hd
          exact .inr (.inl ⟨hcnt, hrem, by simp [ht, Registers.nextCell]⟩)
    | reset =>
      refine ⟨?_, nofun⟩
      cases hd : s.regs.done with
      | true => exact .inr ⟨(done_of_reset hp).mp hd, takenTo_of_done hr hd hstep⟩
      | false =>
        obtain ⟨hlt, ht⟩ | ⟨-, hhigh, -⟩ | ⟨-, hlow, -⟩ := advance_cases (advance_of_not_done hr hd hstep)
        · simp [hp, ht, hlt, Registers.countDown]
        · simp [hp] at hhigh
        · simp [hp] at hlow
  · cases (step_of_reset (armFor_of_rst hr)).symm.trans hstep
    exact ⟨rfl, rfl⟩

/-- Settles O5, phase by phase. -/
theorem readyAndBusySignals : Obligations.ReadyAndBusySignals := by
  refine fun r => ⟨?_, rfl, decide_eq_true_iff⟩
  cases hp : r.phase with
  | idle => simp [done_of_idle hp]
  | high => simp [not_done_of_high hp]
  | low => simp [done_of_low hp]
  | reset => simp [done_of_reset hp]

/-- Settles O11: the arm that the inputs and `done` choose, and what it answers. -/
theorem stepPerformsOneOfFourArms : Obligations.StepPerformsOneOfFourArms := fun _ =>
  ⟨fun hr => step_of_reset (armFor_of_rst hr), fun hr hd hv => step_of_start (armFor_start hr hd hv),
    fun hr hd hv => step_of_toIdle (armFor_toIdle hr hd hv),
    fun hr hd => by rw [step, State.arm, armFor_advance hr hd], fun _ => step_dout_iff⟩

/-- Settles O14: the advance arm, where it counts down. -/
theorem countDownInsideAPhase : Obligations.CountDownInsideAPhase :=
  ⟨fun s hr hd hcnt => step_of_advance (armFor_advance hr hd) (advance_of_lt s.profile hcnt), fun _ => done_of_idle⟩

/-- Settles O15: the advance arm at `cnt = 1`; of the phases that end there, the two others are `done`. -/
theorem phaseEndBeginsTheNextPhase : Obligations.PhaseEndBeginsTheNextPhase := by
  refine ⟨fun s hr hp hcnt => ?_, fun s hr hp hcnt hrem => ?_, fun r hd hcnt => ?_⟩
  · exact step_of_advance (armFor_advance hr (not_done_of_high hp)) (advance_of_high_end s.profile hp hcnt)
  · have hd : s.regs.done = false := by
      rw [← Bool.not_eq_true, done_of_low hp]
      exact fun h => hrem h.2
    exact ⟨_, step_of_advance (armFor_advance hr hd) (advance_of_low_end s.profile hp hcnt),
      rfl, rfl, rfl, rfl, rfl, rfl, rfl, rfl, rfl⟩
  · cases hp : r.phase with
    | idle => simp [done_of_idle hp] at hd
    | high => exact .inl rfl
    | low => exact .inr ⟨rfl, fun hrem => by simp [(done_of_low hp).mpr ⟨hcnt, hrem⟩] at hd⟩
    | reset => simp [(done_of_reset hp).mpr hcnt] at hd

/-- Settles O17: the `to_idle` arm, which changes nothing of an idle block. -/
theorem noCommandGoesToIdle : Obligations.NoCommandGoesToIdle := by
  intro s hr hd hv
  have hstep := step_of_toIdle (armFor_toIdle hr hd hv)
  refine ⟨hstep, fun hinv hp => ?_⟩
  rw [hstep, toIdle_of_idle hinv hp]
  rfl

end Sys2Proof.Machine
end

section
/-! SUPPORT. The bit emitter statements: the start arm of `BIT`, and the rises and falls of a trace made of bit cells
(spec/41_bit_emitter.md R73 to R77). -/

namespace Sys2Proof.Machine

/-! ### The edges of a trace -/

/-- Between two equal levels there is no edge. -/
theorem edges_same (a : Level) (ls : List Level) :
    risingEdges (a :: a :: ls) = risingEdges (a :: ls) ∧ fallingEdges (a :: a :: ls) = fallingEdges (a :: ls) := by
  simp [risingEdges, fallingEdges]

/-- A level that is held has the edges of one cycle of it. -/
theorem edges_replicate_append (a : Level) {n : Nat} (hn : 1 ≤ n) (ls : List Level) :
    risingEdges (List.replicate n a ++ ls) = risingEdges (a :: ls) ∧
    fallingEdges (List.replicate n a ++ ls) = fallingEdges (a :: ls) := by
  induction n, hn using Nat.le_induction with
  | base => exact ⟨rfl, rfl⟩
  | succ n hn ih =>
    obtain ⟨k, rfl⟩ := Nat.exists_eq_add_of_le' hn
    obtain ⟨hrise, hfall⟩ := edges_same a (List.replicate k a ++ ls)
    exact ⟨hrise.trans ih.1, hfall.trans ih.2⟩

/-- A cell on a low line rises once and falls once, and leaves the line low (R12, R77). -/
theorem edges_low_cell (p : Profile) (b : Bool) (ls : List Level) :
    risingEdges (false :: (cell p b ++ ls)) = risingEdges (false :: ls) + 1 ∧
    fallingEdges (false :: (cell p b ++ ls)) = fallingEdges (false :: ls) + 1 := by
  obtain ⟨h, hh⟩ := Nat.exists_eq_add_of_le' (highTime_pos p b)
  obtain ⟨l, hl⟩ := Nat.exists_eq_add_of_le' (lowTime_pos p b)
  have hcell : cell p b ++ ls = List.replicate (h + 1) true ++ (List.replicate (l + 1) false ++ ls) := by
    rw [cell, hh, hl, List.append_assoc]
  obtain ⟨hriseHigh, hfallHigh⟩ := edges_replicate_append true h.succ_pos (List.replicate (l + 1) false ++ ls)
  obtain ⟨hriseLow, hfallLow⟩ := edges_replicate_append false l.succ_pos ls
  rw [hcell]
  constructor
  · calc risingEdges (false :: (List.replicate (h + 1) true ++ (List.replicate (l + 1) false ++ ls)))
        = 1 + risingEdges (List.replicate (h + 1) true ++ (List.replicate (l + 1) false ++ ls)) := rfl
      _ = 1 + (0 + risingEdges (List.replicate (l + 1) false ++ ls)) := congrArg (1 + ·) hriseHigh
      _ = risingEdges (false :: ls) + 1 := by rw [hriseLow, Nat.zero_add, Nat.add_comm]
  · calc fallingEdges (false :: (List.replicate (h + 1) true ++ (List.replicate (l + 1) false ++ ls)))
        = 0 + fallingEdges (List.replicate (h + 1) true ++ (List.replicate (l + 1) false ++ ls)) := rfl
      _ = 0 + (1 + fallingEdges (List.replicate (l + 1) false ++ ls)) := congrArg (0 + ·) hfallHigh
      _ = fallingEdges (false :: ls) + 1 := by rw [hfallLow, Nat.zero_add, Nat.add_comm]

/-- Cells on a low line: one rise and one fall for each bit. -/
theorem edges_low_cells (p : Profile) (bs : List Bool) :
    risingEdges (false :: bs.flatMap (cell p)) = bs.length ∧
    fallingEdges (false :: bs.flatMap (cell p)) = bs.length := by
  induction bs with
  | nil => exact ⟨rfl, rfl⟩
  | cons b bs ih =>
    obtain ⟨hrise, hfall⟩ := edges_low_cell p b (bs.flatMap (cell p))
    exact ⟨hrise.trans (congrArg (· + 1) ih.1), hfall.trans (congrArg (· + 1) ih.2)⟩

/-! ### A command accepted on a low line -/

/-- The trace of a command that a block meeting the invariants accepts: the line is low where the block is ready, and
the wave follows (R29, R71). -/
theorem lineTrace_of_accepted {s : State} {c : Instr} (h : s.Inv) (hacc : s.accepted = some c) (hc : c ≠ .reserved)
    (hrst : rstLow (commandLen s.profile c) s = true) :
    lineTrace (commandLen s.profile c + 1) s = false :: wave s.profile c := by
  obtain ⟨-, -, hd, -⟩ := accepted_eq_some_iff.mp hacc
  obtain ⟨hline, -, -⟩ := traces_of_accepted hacc hc hrst
  rw [hline, dout_of_done h hd]

/-! ### The obligations -/

/-- Settles O26: the wave of `BIT b` is one cell, on a line that is low when the command is accepted. -/
theorem bitEmitsOneCell : Obligations.BitEmitsOneCell := by
  intro s b h hacc hrst
  have hline : lineTrace (highTime s.profile b + lowTime s.profile b + 1) s = false :: cell s.profile b :=
    lineTrace_of_accepted h hacc (by simp) hrst
  obtain ⟨hrise, hfall⟩ := edges_low_cells s.profile [b]
  rw [List.flatMap_singleton] at hrise hfall
  rw [hline]
  exact ⟨rfl, hrise, hfall⟩

/-- Settles O20: the start arm loads the bit and begins its cell, so the registers it writes are those of R73. -/
theorem bitStartsItsCell : Obligations.BitStartsItsCell := by
  intro b s
  rfl

end Sys2Proof.Machine
end

section
/-! SUPPORT. The byte serializer statements: the serializer's registers at each bit boundary, the cells of a byte, and a
byte sent as one `BYTE` or as eight `BIT`s by an eager host (spec/42_byte_serializer.md R83 to R88). -/

namespace Sys2Proof.Machine

/-! ### The serializer's registers -/

/-- The shift of R62 written as the concatenation of R20. -/
theorem shiftIn0_eq_append (x : Byte) : shiftIn0 x = x.extractLsb' 0 7 ++ 0#1 :=
  BitVec.shiftLeft_eq_concat_of_lt (by decide)

theorem shiftIn0_shiftLeft (x : Byte) (k : Nat) : shiftIn0 (x <<< k) = x <<< (k + 1) :=
  (BitVec.shiftLeft_add x k 1).symm

/-- Each bit boundary shifts the byte once more and takes the bit that stood in bit 7 (R84). -/
theorem nextBit_iterate_loadByte (v : Byte) (r : Registers) {k : Nat} (hk : k ≤ 7) :
    (nextBit^[k] (loadByte v r)).cur = v.getLsbD (7 - k) ∧
    (nextBit^[k] (loadByte v r)).sh = v <<< (k + 1) ∧
    (nextBit^[k] (loadByte v r)).rem.val = 7 - k := by
  induction k with
  | zero => exact ⟨rfl, rfl, rfl⟩
  | succ k ih =>
    obtain ⟨-, hsh, hrem⟩ := ih (Nat.le_of_succ_le hk)
    rw [Function.iterate_succ_apply', nextBit_cur, nextBit_sh, nextBit_rem, lowerRem_val, hsh, hrem]
    refine ⟨?_, shiftIn0_shiftLeft v (k + 1), Nat.sub_sub 7 k 1⟩
    rw [BitVec.getLsbD_shiftLeft]
    simp [show ¬ 7 < k + 1 by omega]

/-! ### The length of a byte -/

/-- Bits sent one after the other last as long as their 1 cells and their 0 cells together (R86). -/
theorem sum_cellLengths (p : Profile) (bs : List Bool) :
    (bs.map fun b => highTime p b + lowTime p b).sum =
      bs.count true * (p.t1h + p.t1l) + bs.count false * (p.t0h + p.t0l) := by
  induction bs with
  | nil => simp
  | cons b bs ih =>
    rw [List.map_cons, List.sum_cons, ih]
    cases b <;> simp [highTime, lowTime] <;> ring

/-- The order in which a byte is sent does not change how many of its bits are 1. -/
theorem bitsOf_count_true (v : Byte) : (bitsOf v).count true = (List.range 8).countP fun i => v.getLsbD i := by
  have hreverse : bitsOf v = ((List.range 8).map fun i => v.getLsbD i).reverse := rfl
  rw [hreverse, List.count_reverse, List.count, List.countP_map]
  simp [Function.comp_def]

theorem bitsOf_count_false (v : Byte) : (bitsOf v).count false = 8 - (bitsOf v).count true := by
  have hlen : (bitsOf v).count false + (bitsOf v).count true = 8 := List.count_not_add_count (bitsOf v) true
  omega

/-! ### The end of the last cell of a command -/

/-- The bits of the command in progress whose cells have not ended, the current one first. -/
def Registers.bitsLeft (r : Registers) : List Bool := r.cur :: topBits r.rem.val r.sh

/-- At a bit boundary inside a command one bit is done with (R84). -/
theorem bitsLeft_nextBit {r : Registers} (h : r.rem ≠ 0) : r.bitsLeft = r.cur :: (nextBit r).bitsLeft := by
  obtain ⟨n, hn⟩ : ∃ n, r.rem.val = n + 1 := Nat.exists_eq_succ_of_ne_zero (Fin.val_ne_zero_iff.mpr h)
  simp [Registers.bitsLeft, hn, topBits]

/-- The block emits a cell of a command whose last bit is `b`. -/
structure Registers.Sending (p : Profile) (b : Bool) (r : Registers) : Prop where
  inv : Invariants p r
  cell : r.phase = .high ∨ r.phase = .low
  last : r.bitsLeft.getLast? = some b

/-- The registers in the last cycle of a command whose last bit is `b`: they do not tell how the bits before it were
sent (R88). -/
def cellEnd (b : Bool) : Registers := { phase := .low, cnt := 1, cur := b, sh := 0#8, rem := 0, dout := false }

theorem Registers.Sending.advance {p : Profile} {b : Bool} {r r' : Registers} (h : r.Sending p b) (hd : r.done = false)
    (ha : r.advance p = some r') : r'.Sending p b := by
  have hinv := invariants_advance h.inv ha
  obtain ⟨-, rfl⟩ | ⟨-, -, rfl⟩ | ⟨hcnt, hp, rfl⟩ := advance_cases ha
  · exact ⟨hinv, h.cell, h.last⟩
  · exact ⟨hinv, .inr rfl, h.last⟩
  · have hrem : r.rem ≠ 0 := fun hrem => by simp [(done_of_low hp).mpr ⟨hcnt, hrem⟩] at hd
    refine ⟨hinv, .inl rfl, ?_⟩
    rw [← h.last, bitsLeft_nextBit hrem]
    exact List.getLast?_cons_cons.symm

theorem Registers.Sending.eq_cellEnd {p : Profile} {b : Bool} {r : Registers} (h : r.Sending p b)
    (hd : r.done = true) : r = cellEnd b := by
  have hlow : r.phase = .low := h.cell.resolve_left fun hp => by simp [not_done_of_high hp] at hd
  obtain ⟨hcnt, hrem⟩ := (done_of_low hlow).mp hd
  have hsh := sh_eq_zero_of_rem_eq_zero (spentBitsZero_of_invariants h.inv) hrem
  have hdout := dout_of_done h.inv hd
  have hcur : r.cur = b := by simpa [Registers.bitsLeft, hrem, topBits] using h.last
  cases r
  simp_all [cellEnd]

/-- The start arms of `BIT` and `BYTE` begin the first of the command's cells, whatever the block was doing. -/
theorem sending_of_exec {s t : State} {c : Instr} {b : Bool} (hlast : (commandBits c).getLast? = some b)
    (h : exec c s = .next t) : t.regs.Sending s.profile b := by
  obtain ⟨b', rfl, rfl⟩ | ⟨v, rfl, rfl⟩ | ⟨rfl, rfl⟩ := exec_cases h
  · exact ⟨invariants_beginCell (spentBitsZero_loadBit b' s.regs), .inl rfl, hlast⟩
  · exact ⟨invariants_beginCell (spentBitsZero_loadByte v s.regs), .inl rfl,
      by rwa [commandBits, bitsOf_eq_cons] at hlast⟩
  · cases hlast

/-! ### An eager host -/

/-- The script of a host that presents these commands one after the other, each until it is accepted (R56). -/
def eagerScript (cs : List Instr) : List HostAction := (cs.map fun c => PortAction.present (encode c)).map .port

theorem hostWaits_of_eagerScript {s : State} {cs : List Instr} (h : s.script = eagerScript cs) : s.HostWaits := by
  have hlines : s.outstanding = cs.map fun c => PortAction.present (encode c) := by
    rw [State.outstanding, h, eagerScript, ← List.append_nil (List.map HostAction.port _),
      hostLines_ports_append _ _ (by simp [PortAction.takesNoCycle])]
    exact List.append_nil _
  intro a ha
  rw [hlines] at ha
  obtain ⟨c, -, rfl⟩ := List.mem_map.mp ha
  exact waits_present _

/-- An eager host changes nothing while the block is not ready. -/
theorem afterHost_of_eagerScript {s : State} {cs : List Instr} (h : s.script = eagerScript cs)
    (hd : s.regs.done = false) : s.afterHost = s := by
  cases cs with
  | nil =>
    have hsettle : settle s.strand s.script = (s.strand, none) := h ▸ settle_nil s.strand
    rw [State.afterHost, nextStrand_of_settle hsettle, nextScript_of_settled hsettle, ← show s.script = [] from h]
  | cons c cs =>
    have hready : s.regs.cmdReady = false := hd
    rw [(hostMove_of_port h rfl).2, hready]
    exact congrArg (fun script => { s with script := script }) h.symm

/-- Along a run in which the block is never ready, only `advance` moves it, and an eager host stands still: what
`advance` keeps of the registers holds at the end. -/
theorem run_advance_induction {P : Registers → Prop} {s t : State} {cs : List Instr}
    (hstep : ∀ r r', P r → r.done = false → r.advance s.profile = some r' → P r') (k : Nat)
    (hscript : s.script = eagerScript cs) (hs : P s.regs) (hrun : run k s = .next t)
    (hready : readyTrace k s = List.replicate k false) : t = s.withRegs t.regs ∧ P t.regs := by
  induction k generalizing s with
  | zero => cases hrun; exact ⟨rfl, hs⟩
  | succ k ih =>
    cases hu : step s with
    | fault e => cases e
    | refused e => simp [run, hu] at hrun
    | next u =>
      rw [run_one_add k hu] at hrun
      obtain ⟨hd, hlater⟩ : s.regs.done = false ∧ readyTrace k u = List.replicate k false := by
        rw [readyTrace_one_add k hu, List.replicate_succ] at hready
        exact List.cons.inj hready
      have ha := advance_of_not_done (inputs_rst_of_hostWaits (hostWaits_of_eagerScript hscript)) hd hu
      have hsame : u = s.withRegs u.regs := by
        rw [← afterHost_of_eagerScript hscript hd]
        exact (step_cases hu).1
      rw [hsame] at hrun hlater
      exact ih (s := s.withRegs u.regs) hstep hscript (hstep _ _ hs hd ha) hrun hlater

/-- `lineTrace_add_one_add`, of anything observed. -/
theorem observe_add_one_add {α : Type} (f : State → α) {s t : State} (j m : Nat) (h : run j s = .next t) :
    observe f (j + (m + 1)) s = observe f (j + 1) s ++ (observe f (m + 1) t).tail := by
  rw [observe_add f j _ h, observe_add f j _ h, observe_one, List.append_assoc]
  rfl

theorem readyTrace_of_readyWave {s t : State} {n : Nat} (hrun : run n s = .next t)
    (h : readyTrace (n + 1) s = readyWave (n + 1)) : readyTrace n s = List.replicate n false := by
  rw [readyTrace, observe_add _ n 1 hrun] at h
  exact (List.append_inj h (by simp [observe_length _ n hrun])).1

/-- An eager host lets a command play to the cycle in which the block is ready again, and only the registers move. -/
theorem State.eq_cellEnd_of_run {s t : State} {cs : List Instr} {b : Bool} {n : Nat}
    (hscript : s.script = eagerScript cs) (hs : s.regs.Sending s.profile b) (hrun : run n s = .next t)
    (hready : readyTrace (n + 1) s = readyWave (n + 1)) (hd : t.regs.done = true) : t = s.withRegs (cellEnd b) := by
  obtain ⟨ht, hend⟩ := run_advance_induction (fun _ _ h => h.advance) n hscript hs hrun
    (readyTrace_of_readyWave hrun hready)
  rwa [← hend.eq_cellEnd hd]

/-- A ready block, whatever its registers, and an eager host whose next command has the last bit `b`: the
command's traces, and the whole state in its last cycle. -/
theorem run_of_eagerScript {s : State} {c : Instr} {cs : List Instr} {b : Bool}
    (hd : s.regs.done = true) (hscript : s.script = eagerScript (c :: cs)) (hlast : (commandBits c).getLast? = some b) :
    run (commandLen s.profile c) s = .next { s with regs := cellEnd b, script := eagerScript cs } ∧
    lineTrace (commandLen s.profile c + 1) s = s.regs.dout :: wave s.profile c ∧
    readyTrace (commandLen s.profile c + 1) s = true :: readyWave (commandLen s.profile c) := by
  have hready : s.regs.cmdReady = true := hd
  obtain ⟨hin, hnext⟩ := hostMove_of_port hscript rfl
  rw [hready] at hnext
  have hne : c ≠ .reserved := by
    rintro rfl
    cases hlast
  have harm : s.arm = .start c := by rw [arm_of_presenting hd hin, decode_encode]
  obtain ⟨u, hx, hplays⟩ := exec_plays_wave s.afterHost hne
  have hu : step s = .next u := (step_of_start harm).trans hx
  obtain ⟨hline, hrdy, t, hrun, ht⟩ := traces_of_accepted (accepted_eq_some.mpr harm) hne
    (rstLow_of_hostWaits _ (hostWaits_of_eagerScript hscript))
  rw [hready] at hrdy
  refine ⟨?_, hline, hrdy⟩
  obtain ⟨n, hn⟩ := Nat.exists_eq_add_of_le' hplays.length_pos
  rw [wave_length, afterHost_profile] at hn
  rw [hn] at hrun hrdy ⊢
  rw [readyTrace_one_add _ hu, hready] at hrdy
  have hus : u = s.afterHost.withRegs u.regs := (step_cases hu).1
  have hsending : u.regs.Sending u.profile b := by
    rw [step_profile hu]
    exact sending_of_exec (s := s.afterHost) hlast hx
  have hscriptu : u.script = eagerScript cs := by
    rw [hus, hnext]
    rfl
  rw [hrun, State.eq_cellEnd_of_run hscriptu hsending (run_one_add n hu ▸ hrun) (List.cons.inj hrdy).2 ht, hus, hnext]
  rfl

/-- Bits sent as one `BIT` each by an eager host: their cells without a gap, `cmd_ready` in the last cycle of each, and
the whole state at the end (R88). -/
theorem run_of_eager_bits {s : State} {bs : List Bool} (hd : s.regs.done = true)
    (hscript : s.script = eagerScript (bs.map .bit)) :
    run (bs.map fun b => commandLen s.profile (.bit b)).sum s =
      .next { s with regs := bs.foldl (fun _ b => cellEnd b) s.regs, script := [] } ∧
    lineTrace ((bs.map fun b => commandLen s.profile (.bit b)).sum + 1) s =
      s.regs.dout :: bs.flatMap (cell s.profile) ∧
    readyTrace ((bs.map fun b => commandLen s.profile (.bit b)).sum + 1) s =
      true :: bs.flatMap fun b => readyWave (commandLen s.profile (.bit b)) := by
  induction bs generalizing s with
  | nil =>
    have hready : s.regs.cmdReady = true := hd
    exact ⟨by rw [← show s.script = [] from hscript]; rfl, lineTrace_one s,
      by rw [← hready]; exact observe_one _ s⟩
  | cons b bs ih =>
    obtain ⟨hrun, hline, hready⟩ := run_of_eagerScript hd hscript (b := b) rfl
    obtain ⟨hrun', hline', hready'⟩ :=
      ih (s := { s with regs := cellEnd b, script := eagerScript (bs.map .bit) }) rfl rfl
    rw [List.map_cons, List.sum_cons, Nat.add_assoc]
    refine ⟨(run_add _ _ hrun).trans hrun', ?_, ?_⟩
    · rw [lineTrace_add_one_add _ _ hrun, hline, hline']
      rfl
    · rw [readyTrace, observe_add_one_add _ _ _ hrun, ← readyTrace, ← readyTrace, hready, hready']
      rfl

/-! ### The obligations -/

/-- Settles O27: the wave of `BYTE v` is the cells of `bitsOf v`, on a line that is low when the command is accepted. -/
theorem byteEmitsEightCells : Obligations.ByteEmitsEightCells := by
  intro s v h hacc hrst
  have hline : lineTrace (commandLen s.profile (.byte v) + 1) s = false :: (bitsOf v).flatMap (cell s.profile) :=
    lineTrace_of_accepted h hacc (by simp) hrst
  obtain ⟨hrise, hfall⟩ := edges_low_cells s.profile (bitsOf v)
  rw [hline]
  refine ⟨by simp [bitsOf, List.range_succ], hrise, hfall, ?_, ?_⟩
  · rintro ones rfl
    rw [← bitsOf_count_true, ← bitsOf_count_false]
    exact sum_cellLengths s.profile (bitsOf v)
  · rintro rfl
    rfl

/-- Settles O30: from any ready block the eager `BYTE` and the eager eight `BIT`s both show the cells of `bitsOf v` and
end in `cellEnd v[0]`. -/
theorem byteEqualsEightBits : Obligations.ByteEqualsEightBits := by
  intro s u v hregs hprofile hstrand hd hs hu
  have hbits : u.script = eagerScript ((bitsOf v).map .bit) := by
    rw [hu, eagerScript, List.map_map, List.map_map]
    rfl
  obtain ⟨hrunS, hlineS, hreadyS⟩ := run_of_eagerScript (cs := []) (b := v.getLsbD 0) hd hs rfl
  obtain ⟨hrunU, hlineU, hreadyU⟩ := run_of_eager_bits (hregs ▸ hd) hbits
  rw [← hprofile] at hrunU hlineU hreadyU
  rw [← hstrand] at hrunU
  rw [← hregs] at hlineU
  exact ⟨hlineS.trans hlineU.symm, hlineS, ⟨_, hrunS, hrunU⟩, hreadyS, hreadyU⟩

/-- Settles O16, by induction on the number of boundaries. -/
theorem serializerAfterKBoundaries : Obligations.SerializerAfterKBoundaries :=
  fun v r _ hk => nextBit_iterate_loadByte v r hk

/-- Settles O21: the start arm loads the byte and begins the cell of bit 7. -/
theorem byteStartsItsFirstCell : Obligations.ByteStartsItsFirstCell := by
  intro v s
  rw [← shiftIn0_eq_append]
  rfl

end Sys2Proof.Machine
end

section
/-! SUPPORT. The frame latch statements: the start arm of `LATCH`, its hold cycle by cycle, the low run around it, and the
idle hold (spec/43_frame_latch.md R91 to R95). -/

namespace Sys2Proof.Machine

/-! ### A low `rst` in a part of a run -/

theorem rstLow_of_rstLow_succ {s : State} {k : Nat} (h : rstLow (k + 1) s = true) : rstLow k s = true := by
  induction k generalizing s with
  | zero => rfl
  | succ k ih =>
    obtain ⟨hnow, hlater⟩ := rstLow_one_add.mp h
    exact rstLow_one_add.mpr ⟨hnow, fun t hs => ih (hlater t hs)⟩

theorem rstLow_of_run {s t : State} {j k : Nat} (h : rstLow (j + k) s = true) (hrun : run j s = .next t) :
    rstLow k t = true := by
  rw [rstLow, observe_add _ j k hrun, List.all_append, Bool.and_eq_true] at h
  exact h.2

/-! ### The hold of `LATCH` -/

theorem accepted_eq_none_of_not_done {s : State} (h : s.regs.done = false) : s.accepted = none :=
  Option.eq_none_iff_forall_ne_some.mpr fun i hi => by
    obtain ⟨-, -, hd, -⟩ := accepted_eq_some_iff.mp hi
    simp [h] at hd

theorem step_of_accepted_latch {s : State} (hacc : s.accepted = some .latch) :
    step s = .next (s.afterHost.withRegs (s.regs.enterPhase .reset s.profile.tres)) :=
  step_of_start (accepted_eq_some.mp hacc)

/-- The registers in the `k`-th cycle of the hold: those of the accepting cycle, but for the phase, its count-down and the
line (R91, R92). -/
theorem run_latch_hold {s : State} (hacc : s.accepted = some .latch) (hrst : rstLow s.profile.tres s = true) {k : Nat}
    (hk : k < s.profile.tres) :
    ∃ t, run (k + 1) s = .next t ∧ t.regs = s.regs.enterPhase .reset (s.profile.tres - k) := by
  induction k with
  | zero => exact ⟨_, run_one_add 0 (step_of_accepted_latch hacc), rfl⟩
  | succ k ih =>
    obtain ⟨t, hrun, ht⟩ := ih (Nat.lt_of_succ_lt hk)
    have hsplit : s.profile.tres = (k + 1) + ((s.profile.tres - (k + 2)) + 1) := by omega
    obtain ⟨hlow, -⟩ := rstLow_one_add.mp (rstLow_of_run (hsplit ▸ hrst) hrun)
    have hcnt : t.regs.cnt = s.profile.tres - k := by rw [ht, enterPhase_cnt]
    have hlt : 1 < t.regs.cnt := by omega
    have hd : t.regs.done = false := by
      simpa using (done_of_reset (r := t.regs) (by rw [ht, enterPhase_phase])).not.mpr (by omega)
    have hs := step_of_advance (armFor_advance hlow hd) (advance_of_lt t.profile hlt)
    refine ⟨_, (run_add (k + 1) 1 hrun).trans (run_one_add 0 hs), ?_⟩
    rw [withRegs_regs, ht]
    rfl

/-! ### The low run around a latch -/

theorem wf_of_commandBits_ne_nil {c : Instr} (h : commandBits c ≠ []) : c.wf = true := by
  cases c with
  | reserved => exact absurd rfl h
  | _ => rfl

/-- The wave of a command that carries bits is their cells (R77, R86). -/
theorem wave_eq_cells (p : Profile) {c : Instr} (h : commandBits c ≠ []) :
    wave p c = (commandBits c).flatMap (cell p) := by
  cases c with
  | bit b => exact (List.flatMap_singleton (cell p) b).symm
  | byte v => rfl
  | latch => exact absurd rfl h
  | reserved => exact absurd rfl h

theorem PacedCommands.wave_append (p : Profile) (cs ds : PacedCommands) :
    PacedCommands.wave p (cs ++ ds) = PacedCommands.wave p cs ++ PacedCommands.wave p ds := List.flatMap_append

theorem PacedCommands.wave_cons (p : Profile) (g : Nat) (c : Instr) (cs : PacedCommands) :
    PacedCommands.wave p ((g, c) :: cs) = List.replicate g false ++ Machine.wave p c ++ PacedCommands.wave p cs := rfl

theorem PacedCommands.wave_length (p : Profile) (cs : PacedCommands) :
    (PacedCommands.wave p cs).length = (cs.map fun gc => gc.1 + commandLen p gc.2).sum := by
  simp [PacedCommands.wave, List.length_flatMap, Machine.wave_length]

/-- The trace of an eager host's paced commands, cut in their last cycle (R71). -/
theorem lineTrace_of_script {s : State} {cs : PacedCommands} {n : Nat} (hs : s.afterReset = true) (hwf : cs.wf = true)
    (hscript : s.script = cs.script) (hn : n = 1 + (PacedCommands.wave s.profile cs).length) :
    lineTrace n s = false :: PacedCommands.wave s.profile cs := by
  rw [hn, PacedCommands.wave_length]
  simpa using traceOfPacedCommands s cs 0 hs hwf hscript

/-- A latch and its two gaps are one low run, up to the first cell after it. -/
theorem wave_latch_then (p : Profile) {d : Instr} (g1 g2 : Nat) (hd : commandBits d ≠ []) :
    PacedCommands.wave p [(g1, .latch), (g2, d)] =
      List.replicate (g1 + p.tres + g2) false ++ (commandBits d).flatMap (cell p) := by
  have hhold : wave p .latch = List.replicate p.tres false := rfl
  simp [PacedCommands.wave, hhold, wave_eq_cells p hd, List.replicate_add, -List.replicate_append_replicate]

/-- The low phase of the last bit before a latch belongs to the low run around it (R94). -/
theorem wave_around_latch (p : Profile) {c d : Instr} {bs : List Bool} {b : Bool} (g g1 g2 : Nat)
    (hc : commandBits c = bs ++ [b]) (hd : commandBits d ≠ []) :
    PacedCommands.wave p [(g, c), (g1, .latch), (g2, d)] =
      List.replicate g false ++ bs.flatMap (cell p) ++ List.replicate (highTime p b) true ++
        List.replicate (lowTime p b + g1 + p.tres + g2) false ++ (commandBits d).flatMap (cell p) := by
  have hcells : wave p c = bs.flatMap (cell p) ++ cell p b := by simp [wave_eq_cells p (c := c), hc]
  rw [PacedCommands.wave_cons, wave_latch_then p g1 g2 hd, hcells, cell]
  simp [List.replicate_add, -List.replicate_append_replicate]

/-! ### The idle hold -/

/-- A host with an empty script stays as it is (log 2). -/
theorem afterHost_of_script_nil {s : State} (h : s.script = []) : s.afterHost = s := by
  have hsettle : settle s.strand s.script = (s.strand, none) := h ▸ settle_nil s.strand
  rw [State.afterHost, nextStrand_of_settle hsettle, nextScript_of_settled hsettle, ← h]

theorem run_of_step_eq_self {s : State} (k : Nat) (h : step s = .next s) : run k s = .next s := by
  induction k with
  | zero => rfl
  | succ k ih => rw [run_one_add k h, ih]

/-- An idle block whose host has nothing to do is ready, and no edge moves it (R68, R95). -/
theorem step_of_idle_alone {s : State} (h : s.Inv) (hp : s.regs.phase = .idle) (hscript : s.script = []) :
    s.ReadyFor [] ∧ step s = .next s := by
  have hd := done_of_idle hp
  have hlines : s.outstanding = [] := by rw [State.outstanding, hscript]; rfl
  obtain ⟨hin, -⟩ := hostMove_of_outstanding_nil hlines
  refine ⟨⟨h, hd, hlines⟩, ?_⟩
  rw [step_of_toIdle (armFor_toIdle (by rw [hin, nothing_rst]) hd (by rw [hin, nothing_valid])),
    afterHost_of_script_nil hscript, toIdle_of_idle h hp]
  rfl

/-! ### The obligations -/

/-- Settles O28: the block counts down through the hold, and is not ready while `cnt > 1`. -/
theorem latchHoldsForTresCycles : Obligations.LatchHoldsForTresCycles := by
  intro s hacc hrst k hk
  obtain ⟨t, hrun, ht⟩ := run_latch_hold hacc hrst hk
  refine ⟨t, hrun, by rw [ht, enterPhase_phase], by rw [ht, enterPhase_dout]; rfl, by rw [ht, enterPhase_cnt],
    fun hlast => accepted_eq_none_of_not_done ?_⟩
  have hcnt : ¬ s.profile.tres - k = 1 := by omega
  simpa [ht, Registers.done] using hcnt

/-- Settles O29: the trace of the paced commands, with the low cycles around the latch gathered. -/
theorem lowRunAroundALatch : Obligations.LowRunAroundALatch := by
  refine ⟨fun s h hacc hrst => lineTrace_of_accepted h hacc (by simp) (rstLow_of_rstLow_succ hrst), ?_⟩
  intro s pre c d g g1 g2 bs ds b e hs hpre hc hd
  have hdbits : commandBits d ≠ [] := by simp [hd]
  have hcwf : c.wf = true := wf_of_commandBits_ne_nil (by simp [hc])
  have hwf : PacedCommands.wf [(g1, .latch), (g2, d)] = true := by
    simpa [PacedCommands.wf] using ⟨rfl, wf_of_commandBits_ne_nil hdbits⟩
  rw [← hd]
  constructor <;> intro hscript
  · have hwfall : PacedCommands.wf (pre ++ [(g, c), (g1, .latch), (g2, d)]) = true := by
      rw [PacedCommands.wf, List.all_append, List.all_cons, hcwf, ← PacedCommands.wf, ← PacedCommands.wf, hpre, hwf]
      rfl
    rw [lineTrace_of_script hs hwfall hscript, PacedCommands.wave_append,
      wave_around_latch s.profile g g1 g2 hc hdbits]
    · simp
    · rw [PacedCommands.wave_append, List.length_append, PacedCommands.wave_length s.profile (_ :: _)]
      simp [commandLen]
      omega
  · rw [lineTrace_of_script hs hwf hscript, wave_latch_then s.profile g1 g2 hdbits]
    · rw [← List.cons_append, ← List.replicate_succ]
      congr 2
      omega
    · rw [PacedCommands.wave_length]
      simp [commandLen]
      omega

/-- Settles O31: only acceptance takes a block out of `IDLE`, and an idle block left alone is a fixed point of `step`. -/
theorem idleHoldsTheLineLow : Obligations.IdleHoldsTheLineLow := by
  refine ⟨fun s h hp => dout_of_done h (done_of_idle hp), fun s t hp hs hleft => ?_, fun s k h hp hscript => ?_⟩
  · have hr : s.inputs.rst = false := by
      by_contra hrst
      have ht := (step_of_reset (armFor_of_rst (by simpa using hrst))).symm.trans hs
      cases ht
      exact hleft rfl
    obtain ⟨c, b, rest, hacc, hbits, -⟩ | ⟨hacc, -⟩ | ⟨-, hidle, -⟩ := takenTo_of_done hr (done_of_idle hp) hs
    · refine ⟨hr, c, hacc, ?_⟩
      rintro rfl
      cases hbits
    · exact ⟨hr, .latch, hacc, by simp⟩
    · exact absurd hidle hleft
  · obtain ⟨hready, hstep⟩ := step_of_idle_alone h hp hscript
    exact ⟨run_of_step_eq_self k hstep, hready.lineTrace_nil k⟩

/-- Settles O22: the start arm enters `RESET`, so the registers it writes are those of R91. -/
theorem latchStartsTheHold : Obligations.LatchStartsTheHold := by
  intro s
  rfl

end Sys2Proof.Machine
end

section
/-! SUPPORT. The pixel layer statements: the operations of the driver as functions of the Strand, and from the reset
state the bytes a program of them has accepted, the line of a whole frame and the end of its run
(spec/44_host_pixel_layer.md R100 to R115, 70_reset_and_hazards.md R143). -/

namespace Sys2Proof.Machine

/-! ### Channels, brightness and packed colours -/

theorem scale_zero (c : Byte) : scale 0#8 c = c := if_pos rfl

/-- Two bytes have a product that fits 16 bits (R108). -/
theorem channel_mul_le (c bri : Byte) : c.toNat * bri.toNat ≤ 255 * 255 :=
  Nat.mul_le_mul (Nat.le_of_lt_succ c.isLt) (Nat.le_of_lt_succ bri.isLt)

/-- The high byte of the 16-bit product is the product divided by 256, nothing of it being lost (R108). -/
theorem scale_toNat {bri : Byte} (h : bri ≠ 0#8) (c : Byte) :
    (scale bri c).toNat = c.toNat * bri.toNat / 256 := by
  have hmul := channel_mul_le c bri
  have hfits : c.toNat * bri.toNat < 2 ^ 16 := by omega
  have hc : c.toNat % 2 ^ 16 = c.toNat := Nat.mod_eq_of_lt (c.isLt.trans (by decide))
  have hbri : bri.toNat % 2 ^ 16 = bri.toNat := Nat.mod_eq_of_lt (bri.isLt.trans (by decide))
  rw [scale, if_neg h, BitVec.extractLsb'_toNat, BitVec.toNat_mul, BitVec.toNat_setWidth, BitVec.toNat_setWidth, hc,
    hbri, Nat.mod_eq_of_lt hfits, Nat.shiftRight_eq_div_pow]
  omega

/-- The product is shifted by a whole number of bits where the stored brightness is a power of two (R109). -/
theorem scale_eq_ushiftRight {bri : Byte} {k m : Nat} (hbri : bri.toNat = 2 ^ m) (hk : m + k = 8) (c : Byte) :
    scale bri c = c >>> k := by
  have hne : bri ≠ 0#8 := by
    rintro rfl
    exact (Nat.two_pow_pos m).ne hbri
  apply BitVec.eq_of_toNat_eq
  rw [scale_toNat hne, hbri, BitVec.toNat_ushiftRight, Nat.shiftRight_eq_div_pow,
    show 256 = 2 ^ k * 2 ^ m by rw [← Nat.pow_add, Nat.add_comm, hk], Nat.mul_div_mul_right _ _ (by positivity)]

theorem unbias_bias (level : Byte) : unbiasBrightness (biasBrightness level) = level := BitVec.add_sub_cancel level 1#8

theorem biasBrightness_toNat (level : Byte) : (biasBrightness level).toNat = (level.toNat + 1) % 256 :=
  BitVec.toNat_add level 1#8

theorem unbiasBrightness_toNat (bri : Byte) : (unbiasBrightness bri).toNat = (bri.toNat + 255) % 256 := by
  rw [unbiasBrightness, BitVec.toNat_sub, Nat.add_comm]
  rfl

theorem result_getBrightness {st : Strand} {level : Byte} :
    HostCall.getBrightness.result st = .byte level ↔ level.toNat = (st.bri.toNat + 255) % 256 := by
  rw [← unbiasBrightness_toNat, BitVec.toNat_inj, HostCall.result, HostValue.byte.injEq]
  exact eq_comm

/-- `(r << 16) | (g << 8) | b` is the concatenation of four bytes, bit by bit (R107). -/
theorem packColour_eq_append (c : Colour) : packColour c = 0#8 ++ c.r ++ c.g ++ c.b := by
  ext i hi
  grind [packColour]

theorem packColour_toNat (c : Colour) : (packColour c).toNat = c.r.toNat * 65536 + c.g.toNat * 256 + c.b.toNat := by
  have happend {n : Nat} (x : BitVec n) (v : Byte) : (x ++ v).toNat = x.toNat * 256 + v.toNat := by
    rw [BitVec.toNat_append, ← Nat.shiftLeft_add_eq_or_of_lt v.isLt, Nat.shiftLeft_eq]
  rw [packColour_eq_append, happend, happend, happend, BitVec.toNat_ofNat]
  omega

theorem unpackColour_packColour (c : Colour) : unpackColour (packColour c) = c := by
  have hskip {n : Nat} (x : BitVec n) (v : Byte) (start : Nat) :
      (x ++ v).extractLsb' (start + 8) 8 = x.extractLsb' start 8 := BitVec.extractLsb'_append_eq_of_le (by omega)
  rw [packColour_eq_append, unpackColour]
  congr 1
  · exact (hskip _ c.b 8).trans ((hskip _ c.g 0).trans BitVec.extractLsb'_append_eq_right)
  · exact (hskip _ c.b 0).trans BitVec.extractLsb'_append_eq_right
  · exact BitVec.extractLsb'_append_eq_right

/-- A grey pixel is the same three bytes in every order (R103). -/
theorem pixelBytes_grey (st : Strand) (v : Byte) :
    st.pixelBytes ⟨v, v, v⟩ = [scale st.bri v, scale st.bri v, scale st.bri v] := by
  cases h : st.order <;> simp [Strand.pixelBytes, Strand.scaled, wireOrder, h]

/-! ### When a run has ended (R143) -/

/-- The commands not yet accepted are the words among the lines the host has still to do. -/
theorem commandsAllAccepted_eq (s : State) :
    s.commandsAllAccepted = !s.outstanding.any PortAction.presentsWord := by
  rw [State.commandsAllAccepted, State.outstanding, hostLines, List.any_filter]
  congr 2
  funext a
  cases ha : a.takesNoCycle with
  | true => simp [not_presentsWord_of_takesNoCycle ha]
  | false => simp

theorem commandsAllAccepted_step {s t : State} (h : s.commandsAllAccepted = true) (hs : step s = .next t) :
    t.commandsAllAccepted = true := by
  rw [commandsAllAccepted_eq, outstanding_of_step hs, ← commandsAllAccepted_eq]
  exact commandsAllAccepted_afterHost h

theorem ended_eq_false_of_running {s : State} (h : s.regs.phase ≠ .idle) : s.ended = false := by
  simp [State.ended, h]

/-- A run has not ended in a cycle after which some command is still to be accepted. -/
theorem ended_eq_false_of_run {s t : State} (k : Nat) (hrun : run k s = .next t)
    (h : t.commandsAllAccepted = false) : s.ended = false := by
  cases hs : s.commandsAllAccepted with
  | true =>
    have ht : t.commandsAllAccepted = true := run_induction (fun _ _ => commandsAllAccepted_step) k hs hrun
    simp [h] at ht
  | false => simp [State.ended, hs]

theorem ended_of_idle {s : State} (hp : s.regs.phase = .idle) (h : s.outstanding = []) : s.ended = true := by
  obtain ⟨hin, -⟩ := hostMove_of_outstanding_nil h
  simp [State.ended, commandsAllAccepted_eq, h, hin, hp]

/-- A run that has not ended in its first `k` cycles ends where the rest of it does. -/
theorem State.runEndsIn_add {s t : State} {k n : Nat} (hrun : run k s = .next t)
    (hnot : ∀ j u, j < k → run j s = .next u → u.ended = false) (h : t.runEndsIn n) : s.runEndsIn (k + n) := by
  obtain ⟨⟨v, hv, hended⟩, hfirst⟩ := h
  refine ⟨⟨v, (run_add k n hrun).trans hv, hended⟩, fun j u hj hu => ?_⟩
  by_cases hjk : j < k
  · exact hnot j u hjk hu
  · obtain ⟨i, rfl⟩ := Nat.exists_eq_add_of_le (Nat.le_of_not_lt hjk)
    exact hfirst i u (by omega) (run_add k i hrun ▸ hu)

/-! ### A command in progress -/

/-- After the edge that accepts a command the block runs, not ready until the command's last cycle (R71). -/
theorem exists_step_of_accepted {s : State} {c : Instr} (hacc : s.accepted = some c) (hc : c ≠ .reserved)
    (hrst : rstLow (commandLen s.profile c) s = true) :
    ∃ n u t, commandLen s.profile c = n + 1 ∧ step s = .next u ∧ u.regs.phase ≠ .idle ∧ run n u = .next t ∧
      rstLow n u = true ∧ readyTrace n u = List.replicate n false := by
  obtain ⟨u, hx, hplays⟩ := exec_plays_wave s.afterHost hc
  have hs : step s = .next u := (step_of_start (accepted_eq_some.mp hacc)).trans hx
  obtain ⟨n, hn⟩ := Nat.exists_eq_add_of_le' hplays.length_pos
  rw [wave_length, afterHost_profile] at hn
  obtain ⟨-, hready, t, hrun, -⟩ := traces_of_accepted hacc hc hrst
  rw [hn] at hready hrun hrst
  rw [readyTrace_one_add _ hs] at hready
  rw [run_one_add n hs] at hrun
  obtain ⟨-, hready⟩ := List.cons.inj hready
  obtain ⟨-, hlow⟩ := rstLow_one_add.mp hrst
  refine ⟨n, u, t, hn, hs, ?_, hrun, hlow u hs, readyTrace_of_readyWave hrun hready⟩
  obtain ⟨b, -, rfl⟩ | ⟨v, -, rfl⟩ | ⟨-, rfl⟩ := exec_cases hx <;> exact nofun

/-- `advance` never leads to `IDLE` (R70). -/
theorem phase_ne_idle_of_advance {p : Profile} {r r' : Registers} (hp : r.phase ≠ .idle)
    (h : r.advance p = some r') : r'.phase ≠ .idle := by
  obtain ⟨-, rfl⟩ | ⟨-, -, rfl⟩ | ⟨-, -, rfl⟩ := advance_cases h
  · exact hp
  · exact nofun
  · exact nofun

/-- A running block still runs in the first cycle in which it is ready again. -/
theorem phase_ne_idle_of_not_ready {s t : State} {j k : Nat} (hp : s.regs.phase ≠ .idle) (hrst : rstLow k s = true)
    (hready : readyTrace k s = List.replicate k false) (hj : j ≤ k) (hrun : run j s = .next t) :
    t.regs.phase ≠ .idle := by
  induction j generalizing s k with
  | zero => cases hrun; exact hp
  | succ j ih =>
    obtain ⟨k, rfl⟩ := Nat.exists_eq_add_of_le' (Nat.lt_of_lt_of_le j.succ_pos hj)
    cases hs : step s with
    | fault e => cases e
    | refused e => simp [run, hs] at hrun
    | next u =>
      rw [run_one_add j hs] at hrun
      obtain ⟨hlow, hlater⟩ := rstLow_one_add.mp hrst
      rw [readyTrace_one_add k hs, List.replicate_succ] at hready
      obtain ⟨hd, hready⟩ := List.cons.inj hready
      exact ih (phase_ne_idle_of_advance hp (advance_of_not_done hlow hd hs)) (hlater u hs) hready (by omega) hrun

/-- A block that is not ready accepts nothing (R64). -/
theorem observe_accepted_of_not_ready {s t : State} (k : Nat) (hrun : run k s = .next t)
    (hready : readyTrace k s = List.replicate k false) : (observe State.accepted k s).filterMap id = [] := by
  induction k generalizing s with
  | zero => rfl
  | succ k ih =>
    cases hs : step s with
    | fault e => cases e
    | refused e => simp [run, hs] at hrun
    | next u =>
      rw [run_one_add k hs] at hrun
      rw [readyTrace_one_add k hs, List.replicate_succ] at hready
      obtain ⟨hd, hready⟩ := List.cons.inj hready
      rw [observe_one_add _ k hs, accepted_eq_none_of_not_done hd]
      exact ih hrun hready

section

variable {s : State} {c : Instr} (hacc : s.accepted = some c) (hc : c ≠ .reserved)
  (hrst : rstLow (commandLen s.profile c) s = true)

include hacc hc hrst

/-- The block runs in each of the cycles of an accepted command. -/
theorem phase_ne_idle_of_accepted {t : State} {j : Nat} (hj : j < commandLen s.profile c)
    (hrun : run (j + 1) s = .next t) : t.regs.phase ≠ .idle := by
  obtain ⟨n, u, v, hn, hs, hp, -, hlow, hready⟩ := exists_step_of_accepted hacc hc hrst
  exact phase_ne_idle_of_not_ready hp hlow hready (by omega) (run_one_add j hs ▸ hrun)

/-- A command is the only one accepted from its own accepting cycle to the one before it ends. -/
theorem observe_accepted_of_accepted : (observe State.accepted (commandLen s.profile c) s).filterMap id = [c] := by
  obtain ⟨n, u, v, hn, hs, -, hrun, -, hready⟩ := exists_step_of_accepted hacc hc hrst
  rw [hn, observe_one_add _ n hs, hacc, List.filterMap_cons, observe_accepted_of_not_ready n hrun hready]
  rfl

end

/-! ### Programs of the pixel layer (R57) -/

theorem hostLines_nil (st : Strand) : hostLines st [] = [] := rfl

/-- A call puts its commands before the lines of what follows it, done with the Strand it leaves. -/
theorem hostLines_call (st : Strand) (c : HostCall) (rest : List HostAction) :
    hostLines st (.call c :: rest) = c.actions st ++ hostLines (c.strandAfter st) rest := by
  have hcycle : ∀ a ∈ c.actions st, (!a.takesNoCycle) = true := fun a ha => by simp [takesNoCycle_of_mem_actions ha]
  rw [hostLines, expand_call, List.filter_append, List.filter_eq_self.mpr hcycle, hostLines]

/-- The lines of an eager host that presents these commands (R56). -/
def eagerLines (cs : List Instr) : List PortAction := cs.map fun c => .present (encode c)

theorem waits_of_mem_eagerLines {cs : List Instr} {a : PortAction} (h : a ∈ eagerLines cs) : a.Waits := by
  obtain ⟨c, -, rfl⟩ := List.mem_map.mp h
  exact waits_present _

theorem eagerLines_append (cs ds : List Instr) : eagerLines (cs ++ ds) = eagerLines cs ++ eagerLines ds :=
  List.map_append

theorem sendPixel_eq_eagerLines (st : Strand) (c : Colour) :
    st.sendPixel c = eagerLines ((st.pixelBytes c).map .byte) := by
  rw [eagerLines, List.map_map]
  rfl

/-- A pixel sent right after a new brightness is scaled by it (R111). -/
theorem hostLines_setBrightness_sendPixel (st : Strand) (level : Byte) (c : Colour) (rest : List HostAction) :
    hostLines st (.call (.setBrightness level) :: .call (.sendPixel c) :: rest) =
      eagerLines ((Strand.pixelBytes { st with bri := level + 1#8 } c).map .byte) ++
        hostLines { st with bri := level + 1#8 } rest := by
  rw [hostLines_call, hostLines_call, ← sendPixel_eq_eagerLines]
  rfl

/-- The commands of a frame: three bytes for each pixel, and the latch (R115). -/
def Strand.frameCommands (st : Strand) (colours : List Colour) : List Instr :=
  (colours.flatMap st.pixelBytes).map .byte ++ [.latch]

theorem sendFrame_eq_eagerLines {st : Strand} {colours : List Colour} (h : st.pixelCount = colours.length) :
    (HostCall.sendFrame colours).actions st = eagerLines (st.frameCommands colours) := by
  rw [HostCall.actions, h, List.take_length, eagerLines, Strand.frameCommands, List.map_append, List.map_map,
    List.map_flatMap]
  rfl

theorem readyFor_of_afterReset {s : State} (h : s.afterReset = true) : s.ReadyFor (hostLines s.strand s.script) :=
  ⟨inv_of_afterReset h, by rw [regs_of_afterReset h]; rfl, rfl⟩

/-! ### What a ready block does with its host's commands -/

theorem State.ReadyFor.accepted_present {s : State} {c : Instr} {ls : List PortAction}
    (h : s.ReadyFor (.present (encode c) :: ls)) : s.accepted = some c := by
  obtain ⟨hin, -⟩ := hostMove_of_outstanding_cons h.lines
  rw [accepted_eq_some, arm_of_presenting h.done hin, decode_encode]

theorem State.ReadyFor.rstLow_of_waits {s : State} {ls : List PortAction} (h : s.ReadyFor ls)
    (hls : ∀ a ∈ ls, a.Waits) (k : Nat) : rstLow k s = true :=
  rstLow_of_hostWaits k (by rwa [State.HostWaits, h.lines])

/-- An eager host's commands are accepted in their order, each in the last cycle of the one before it. -/
theorem State.ReadyFor.observe_accepted {s : State} {cs : List Instr} (h : s.ReadyFor (eagerLines cs))
    (hwf : ∀ c ∈ cs, c.wf = true) :
    (observe State.accepted (cs.map (commandLen s.profile)).sum s).filterMap id = cs := by
  induction cs generalizing s with
  | nil => rfl
  | cons c cs ih =>
    obtain ⟨hc, hcs⟩ := List.forall_mem_cons.mp hwf
    have hc := Instr.ne_reserved_of_wf hc
    have hfirst := observe_accepted_of_accepted h.accepted_present hc
      (h.rstLow_of_waits (fun _ => waits_of_mem_eagerLines) _)
    obtain ⟨t, hrun, hp, ht, -⟩ := State.ReadyFor.run_present h hc fun _ => waits_of_mem_eagerLines
    have hrest := ih ht hcs
    rw [hp] at hrest
    rw [List.map_cons, List.sum_cons, observe_add _ _ _ hrun, List.filterMap_append, hfirst, hrest]
    rfl

/-- Where the last command is in its last cycle, the next edge ends the run. -/
theorem State.ReadyFor.runEndsIn_one {s : State} (h : s.ReadyFor []) (hp : s.regs.phase ≠ .idle) : s.runEndsIn 1 := by
  obtain ⟨hin, hnext⟩ := hostMove_of_outstanding_nil h.lines
  have hs := step_of_toIdle (armFor_toIdle (by rw [hin, nothing_rst]) h.done (by rw [hin, nothing_valid]))
  refine ⟨⟨_, run_one_add 0 hs, ended_of_idle rfl (by rw [outstanding_of_step hs, hnext])⟩, fun j u hj hu => ?_⟩
  obtain rfl : j = 0 := Nat.lt_one_iff.mp hj
  cases hu
  exact ended_eq_false_of_running hp

/-- The run of paced commands ends in the cycle after the last of them. -/
theorem State.ReadyFor.runEndsIn_lines {s : State} {cs : PacedCommands} (h : s.ReadyFor cs.lines) (hwf : cs.wf = true)
    (hlast : cs = [] → s.regs.phase ≠ .idle) : s.runEndsIn (cs.len s.profile + 1) := by
  induction cs generalizing s with
  | nil => exact h.runEndsIn_one (hlast rfl)
  | cons gc cs ih =>
    obtain ⟨g, c⟩ := gc
    obtain ⟨hc, hcs⟩ : c.wf = true ∧ PacedCommands.wf cs = true := by simpa [PacedCommands.wf] using hwf
    have hc := Instr.ne_reserved_of_wf hc
    have hlen : PacedCommands.len s.profile ((g, c) :: cs) + 1 =
        g + (commandLen s.profile c + (PacedCommands.len s.profile cs + 1)) := by
      simp only [PacedCommands.len, List.map_cons, List.sum_cons]
      omega
    rw [PacedCommands.lines_cons] at h
    obtain ⟨t, hrunt, hpt, ht, -⟩ := h.run_gap g
    obtain ⟨u, hrunu, hpu, hu, -⟩ := ht.run_present hc fun _ => PacedCommands.waits_of_mem_lines
    have hleft : t.commandsAllAccepted = false := by
      rw [commandsAllAccepted_eq, ht.lines]
      rfl
    have hacc := ht.accepted_present
    have hrst := ht.rstLow_of_waits
      (List.forall_mem_cons.mpr ⟨waits_present _, fun _ => PacedCommands.waits_of_mem_lines⟩) (commandLen t.profile c)
    obtain ⟨n, -, -, hn, -⟩ := exists_step_of_accepted hacc hc hrst
    have hend := ih hu hcs fun _ => phase_ne_idle_of_accepted hacc hc hrst (hn ▸ n.lt_succ_self) (hn ▸ hrunu)
    rw [hpu] at hend
    rw [hlen, ← hpt]
    refine State.runEndsIn_add hrunt (fun j v hj hv => ?_) (State.runEndsIn_add hrunu (fun j v hj hv => ?_) hend)
    · obtain ⟨i, rfl⟩ := Nat.exists_eq_add_of_le hj.le
      exact ended_eq_false_of_run i (run_add j i hv ▸ hrunt) hleft
    · cases j with
      | zero => cases hv; exact ended_eq_false_of_run 0 rfl hleft
      | succ j => exact ended_eq_false_of_running (phase_ne_idle_of_accepted hacc hc hrst (Nat.lt_of_succ_lt hj) hv)

/-! ### Commands without gaps -/

/-- Commands that an eager host presents with no gap between them (R56). -/
def gapless (cs : List Instr) : PacedCommands := cs.map fun c => (0, c)

theorem gapless_lines (cs : List Instr) : (gapless cs).lines = eagerLines cs := by
  induction cs with
  | nil => rfl
  | cons c cs ih => exact congrArg (PortAction.present (encode c) :: ·) ih

theorem gapless_wf (cs : List Instr) : (gapless cs).wf = cs.all Instr.wf := List.all_map

theorem gapless_wave (p : Profile) (cs : List Instr) : (gapless cs).wave p = cs.flatMap (wave p) := by
  rw [gapless, PacedCommands.wave, List.flatMap_map]
  rfl

theorem gapless_len (p : Profile) (cs : List Instr) : (gapless cs).len p = (cs.map (commandLen p)).sum := by
  simp [gapless, PacedCommands.len, Function.comp_def]

theorem frameCommands_wf (st : Strand) (colours : List Colour) : (gapless (st.frameCommands colours)).wf = true := by
  simp [gapless_wf, Strand.frameCommands, Instr.wf]

theorem frameCommands_wave (p : Profile) (st : Strand) (colours : List Colour) :
    (st.frameCommands colours).flatMap (wave p) =
      (colours.flatMap st.pixelBytes).flatMap (fun v => wave p (.byte v)) ++ List.replicate p.tres false := by
  rw [Strand.frameCommands, List.flatMap_append, List.flatMap_map]
  exact congrArg _ (List.flatMap_singleton (wave p) .latch)

theorem frameCommands_len (p : Profile) (st : Strand) (colours : List Colour) :
    ((st.frameCommands colours).map (commandLen p)).sum =
      ((colours.flatMap st.pixelBytes).map fun v => commandLen p (.byte v)).sum + p.tres := by
  simp [Strand.frameCommands, commandLen, Function.comp_def]

/-! ### The obligations -/

/-- Settles O50: after reset the block is ready for the frame's commands, which the eager host presents without a
gap. -/
theorem frameOnTheLine : Obligations.FrameOnTheLine := by
  intro s colours n k hs hcount hscript hn
  have hready := readyFor_of_afterReset hs
  rw [hscript, hostLines_call, sendFrame_eq_eagerLines hcount, hostLines_nil, List.append_nil,
    ← gapless_lines] at hready
  have hwf := frameCommands_wf s.strand colours
  have hlen : (gapless (s.strand.frameCommands colours)).len s.profile = n + s.profile.tres := by
    rw [gapless_len, frameCommands_len, hn]
  constructor
  · have htrace := hready.lineTrace_lines k hwf
    rw [hlen, gapless_wave, frameCommands_wave, List.append_assoc, List.replicate_append_replicate] at htrace
    rw [show 1 + n + s.profile.tres + k = n + s.profile.tres + k + 1 by omega, htrace, List.cons_append]
  · have hend := hready.runEndsIn_lines hwf (by simp [gapless, Strand.frameCommands])
    rwa [hlen, Nat.add_comm, ← Nat.add_assoc] at hend

/-- Settles O49: each call is expanded with the Strand of its own time, and an eager host's bytes are accepted in
order. -/
theorem brightnessScalesOnlyLaterPixels : Obligations.BrightnessScalesOnlyLaterPixels := by
  refine ⟨fun s a b c hs hscript => ?_, fun st => ?_⟩
  · have hready := readyFor_of_afterReset hs
    rw [hscript, hostLines_setBrightness_sendPixel, hostLines_setBrightness_sendPixel, hostLines_nil, List.append_nil,
      ← eagerLines_append, ← List.map_append] at hready
    refine ⟨_, hready.observe_accepted fun i hi => ?_⟩
    obtain ⟨v, -, rfl⟩ := List.mem_map.mp hi
    rfl
  · simp only [pixelBytes_grey]
    decide

/-- Settles O44, order by order; the words are those of R56. -/
theorem pixelBytesInWireOrder : Obligations.PixelBytesInWireOrder := by
  refine fun st c => ⟨fun h => ?_, fun h => ?_, fun h => ?_, rfl⟩
  · rw [h, wireOrder]
  · rw [h, wireOrder]
  · rw [h, wireOrder]

/-- Settles O45: the product fits 16 bits, so nothing is lost but the fraction. -/
theorem scaleTakesTheHighByte : Obligations.ScaleTakesTheHighByte := by
  intro bri c
  have hmul := channel_mul_le c bri
  refine ⟨?_, fun h => ⟨scale_toNat h c, ?_⟩, hmul⟩
  · rintro rfl
    exact scale_zero c
  · rw [scale_toNat h]
    omega

/-- Settles O46: the bias and its inverse; at the tabulated levels the stored brightness is 0, a power of two, 255
or 2. -/
theorem brightnessIsStoredBiased : Obligations.BrightnessIsStoredBiased := by
  refine ⟨fun st level => ⟨rfl, biasBrightness_toNat level, rfl, congrArg HostValue.byte (unbias_bias level),
      result_getBrightness⟩,
    fun c => ⟨scale_zero c, scale_eq_ushiftRight (m := 7) rfl rfl c, scale_eq_ushiftRight (m := 6) rfl rfl c, ?_,
      scale_toNat (bri := 255#8) (by decide) c, scale_toNat (bri := 2#8) (by decide) c⟩,
    by decide, by decide, by decide, by decide, fun _ _ _ _ _ => rfl⟩
  rw [scale_eq_ushiftRight (bri := biasBrightness 0#8) (m := 0) (k := 8) rfl rfl]
  exact BitVec.ushiftRight_eq_zero (by decide)

/-- Settles O47: the packed number, its fields, and `unpackColour` under the names of R106. -/
theorem packedColoursRoundTrip : Obligations.PackedColoursRoundTrip :=
  ⟨fun c => ⟨unpackColour_packColour c, packColour_toNat c⟩, fun _ _ => ⟨rfl, rfl, rfl⟩, fun _ _ _ => ⟨rfl, rfl⟩⟩

/-- Settles O48, call by call. -/
theorem strandFieldsAndTheirWriters : Obligations.StrandFieldsAndTheirWriters := by
  refine ⟨fun st c hconstruct => ?_, fun _ _ _ _ _ => ⟨rfl, rfl⟩, fun _ _ => ⟨rfl, rfl⟩,
    fun _ => ⟨rfl, rfl, rfl, rfl, rfl, rfl, rfl⟩⟩
  cases c with
  | construct n pin order flags => exact absurd rfl (hconstruct n pin order flags)
  | setBrightness level => exact ⟨rfl, rfl, fun h => absurd rfl (h level), fun _ => rfl⟩
  | setOutputPin pin => exact ⟨rfl, rfl, fun _ => rfl, fun h => absurd rfl (h pin)⟩
  | _ => exact ⟨rfl, rfl, fun _ => rfl, fun _ => rfl⟩

end Sys2Proof.Machine
end

section
/-! SUPPORT. The exception statements: what can stop a step, and how long the host can wait for the block
(spec/60_exceptions.md R124, 70_reset_and_hazards.md R142, R153). -/

namespace Sys2Proof.Machine

/-! ### The longest command -/

/-- The length of the longer of the two cells. -/
def longestCell (p : Profile) : Nat := max (p.t1h + p.t1l) (p.t0h + p.t0l)

theorem longestCommand_eq (p : Profile) : longestCommand p = max (8 * longestCell p) p.tres := rfl

theorem eight_cells_le_longestCommand (p : Profile) : 8 * longestCell p ≤ longestCommand p := le_max_left _ _

theorem tres_le_longestCommand (p : Profile) : p.tres ≤ longestCommand p := le_max_right _ _

theorem longestCommand_pos (p : Profile) : 0 < longestCommand p :=
  Nat.lt_of_lt_of_le p.tres_pos (tres_le_longestCommand p)

theorem cellLength_le_longestCell (p : Profile) (b : Bool) : highTime p b + lowTime p b ≤ longestCell p := by
  cases b
  · exact le_max_right _ _
  · exact le_max_left _ _

theorem sum_cellLengths_le (p : Profile) (bs : List Bool) :
    (bs.map fun b => highTime p b + lowTime p b).sum ≤ bs.length * longestCell p := by
  have h := List.sum_le_card_nsmul (bs.map fun b => highTime p b + lowTime p b) (longestCell p)
    (List.forall_mem_map.mpr fun b _ => cellLength_le_longestCell p b)
  rwa [List.length_map, smul_eq_mul] at h

/-- No command is longer than eight of the longer cell or the latch hold (R153). -/
theorem commandLen_le_longestCommand (p : Profile) (c : Instr) : commandLen p c ≤ longestCommand p := by
  have hcells := eight_cells_le_longestCommand p
  cases c with
  | bit b => exact (cellLength_le_longestCell p b).trans (by omega)
  | byte v => exact (sum_cellLengths_le p (bitsOf v)).trans hcells
  | latch => exact tres_le_longestCommand p
  | reserved => exact Nat.zero_le _

/-- Eight equal bits last eight times their cell; one of the two bits has the longer cell. -/
theorem exists_byte_of_eight_longestCells (p : Profile) : ∃ v, commandLen p (.byte v) = 8 * longestCell p := by
  obtain h | h := le_total (p.t0h + p.t0l) (p.t1h + p.t1l)
  · refine ⟨255#8, (sum_cellLengths p (bitsOf 255#8)).trans ?_⟩
    rw [show (bitsOf 255#8).count true = 8 by decide, show (bitsOf 255#8).count false = 0 by decide, longestCell,
      max_eq_left h, Nat.zero_mul, Nat.add_zero]
  · refine ⟨0#8, (sum_cellLengths p (bitsOf 0#8)).trans ?_⟩
    rw [show (bitsOf 0#8).count true = 0 by decide, show (bitsOf 0#8).count false = 8 by decide, longestCell,
      max_eq_right h, Nat.zero_mul, Nat.zero_add]

/-- The bound is the length of a command that may be presented: a byte, or the latch where its hold is the longer. -/
theorem exists_longestCommand (p : Profile) : ∃ c : Instr, c.wf = true ∧ commandLen p c = longestCommand p := by
  rw [longestCommand_eq]
  obtain h | h := le_total p.tres (8 * longestCell p)
  · obtain ⟨v, hv⟩ := exists_byte_of_eight_longestCells p
    exact ⟨.byte v, rfl, hv.trans (max_eq_left h).symm⟩
  · exact ⟨.latch, rfl, (max_eq_right h).symm⟩

/-! ### How much of a command can still be to come -/

theorem unbegun_length_le (p : Profile) (r : Registers) : (r.unbegun p).length ≤ r.rem.val * longestCell p := by
  have h := sum_cellLengths_le p (topBits r.rem.val r.sh)
  rw [topBits_length] at h
  simpa [Registers.unbegun, cell, List.length_flatMap] using h

/-- The cell in progress and at most seven cells still to begin, or a latch hold: no more than the longest command. -/
theorem pending_length_le_longestCommand {p : Profile} {r : Registers} (h : Invariants p r) :
    (r.pending p).length ≤ longestCommand p := by
  have hnil := pending_eq_nil h
  obtain ⟨-, ⟨-, hhigh, hlow, hreset⟩, hrem, -⟩ := h
  have hcell := cellLength_le_longestCell p r.cur
  have hcells := eight_cells_le_longestCommand p
  have hunbegun : (r.unbegun p).length ≤ 7 * longestCell p :=
    (unbegun_length_le p r).trans (Nat.mul_le_mul_right _ (Nat.le_of_lt_succ r.rem.isLt))
  cases hp : r.phase with
  | idle => simp [hnil.mpr hp]
  | high =>
    have hcnt := hhigh hp
    rw [Registers.pending, afterPhase_of_high p hp]
    simp only [List.length_append, List.length_replicate]
    omega
  | low =>
    have hcnt := hlow hp
    rw [Registers.pending, afterPhase_of_ne_high p (by simp [hp]), List.length_append, List.length_replicate]
    omega
  | reset =>
    rw [Registers.pending, afterPhase_of_ne_high p (by simp [hp]), unbegun_of_rem_eq_zero p (hrem (.inr hp)),
      List.append_nil, List.length_replicate]
    exact (hreset hp).2.trans (tres_le_longestCommand p)

/-! ### The way back to a ready block -/

theorem rstLow_of_le {s : State} {j k : Nat} (hjk : j ≤ k) (h : rstLow k s = true) : rstLow j s = true :=
  antitone_nat_of_succ_le (f := fun n => rstLow n s = true) (fun _ => rstLow_of_rstLow_succ) hjk h

/-- An idle block is ready at once, a running one in the last cycle of the levels it still has to play. -/
theorem exists_run_cmdReady {s : State} (h : s.Inv) (hrst : rstLow (longestCommand s.profile) s = true) :
    ∃ k t, k < longestCommand s.profile ∧ run k s = .next t ∧ t.regs.cmdReady = true := by
  by_cases hp : s.regs.phase = .idle
  · exact ⟨0, s, longestCommand_pos s.profile, rfl, done_of_idle hp⟩
  · have hplays := plays_pending h hp
    obtain ⟨n, hn⟩ := Nat.exists_eq_add_of_le' hplays.length_pos
    have hlt : n < longestCommand s.profile := hn.symm.trans_le (pending_length_le_longestCommand h)
    obtain ⟨-, -, t, hrun, hready⟩ := traces_of_plays hplays rfl rfl hn (rstLow_of_le hlt.le hrst)
    exact ⟨n, t, hlt, hrun, hready⟩

/-! ### The advance arm under the invariants -/

/-- Under the invariants `advance` always has a rule to follow: a running phase has `cnt` at least 1. -/
theorem exists_advance {p : Profile} {r : Registers} (h : Invariants p r) (hd : r.done = false) :
    ∃ r', r.advance p = some r' := by
  obtain ⟨-, hcnt, -, -⟩ := h
  have hp : r.phase ≠ .idle := fun hp => by simp [done_of_idle hp] at hd
  have hpos := cnt_pos_of_ne_idle hcnt hp
  refine Option.ne_none_iff_exists'.mp fun hnone => ?_
  have hzero := advance_eq_none hd hnone
  omega

/-! ### The obligations -/

/-- Settles O39: a running block plays the levels still to come and is ready in the last of them, and they are no more
than the longest command has cycles. -/
theorem blockBecomesReady : Obligations.BlockBecomesReady :=
  ⟨fun p => ⟨commandLen_le_longestCommand p, exists_longestCommand p⟩, fun _ => exists_run_cmdReady⟩

/-- Settles O36, arm by arm: only a start arm can be refused, and of the commands only the reserved one. -/
theorem onlyTheReservedWordStopsAStep : Obligations.OnlyTheReservedWordStopsAStep := by
  intro s h
  obtain ⟨-, ha⟩ | ⟨-, -, -, ha⟩ | ⟨-, -, -, ha⟩ | ⟨-, hd, ha⟩ := armFor_cases s.regs s.inputs
  · exact .inl ⟨_, step_of_reset ha⟩
  · by_cases hc : decode s.inputs.word = .reserved
    · rw [hc] at ha
      exact .inr ⟨step_eq_reservedOp.mpr ha, accepted_eq_some.mpr ha⟩
    · obtain ⟨t, hx, -⟩ := exec_plays_wave s.afterHost hc
      exact .inl ⟨t, (step_of_start ha).trans hx⟩
  · exact .inl ⟨_, step_of_toIdle ha⟩
  · obtain ⟨r, hr⟩ := exists_advance h hd
    exact .inl ⟨_, step_of_advance ha hr⟩

end Sys2Proof.Machine
end

section
/-! SUPPORT. The reset and hazard statements: a held reset, a dutiful host's run, a gapless frame, and the end of a run
whatever gaps the host's list still holds (spec/70_reset_and_hazards.md R137 to R150). -/

namespace Sys2Proof

/-! ### Lines and what they present -/

/-- A word is presented exactly where the port shows a valid command and no reset (R64, R143). -/
theorem presentsWord_eq (a : PortAction) : a.presentsWord = (a.inputs.valid && !a.inputs.rst) := by
  cases a <;> rfl

/-- A gap of the host's list: an `IDLE` or a `WAIT` line (R56). -/
def PortAction.IsGap (a : PortAction) : Prop := ∃ k, a = .idle k ∨ a = .wait k

theorem inputs_of_isGap {a : PortAction} (h : a.IsGap) : a.inputs = Inputs.nothing := by
  obtain ⟨k, rfl | rfl⟩ := h <;> rfl

theorem isGap_of_after {a b : PortAction} {ready : Bool} (ha : a.IsGap) (h : a.after ready = some b) : b.IsGap := by
  obtain ⟨k, rfl | rfl⟩ := ha
  · cases ready with
    | false => exact ⟨k, .inl (Option.some.inj h).symm⟩
    | true =>
      obtain ⟨-, rfl⟩ : 1 < k ∧ .idle (k - 1) = b := by simpa [PortAction.after] using h
      exact ⟨k - 1, .inl rfl⟩
  · obtain ⟨-, rfl⟩ : 1 < k ∧ .wait (k - 1) = b := by simpa [PortAction.after] using h
    exact ⟨k - 1, .inr rfl⟩

theorem not_presentsWord_of_isGap {a : PortAction} (h : a.IsGap) : a.presentsWord = false := by
  rw [presentsWord_eq, inputs_of_isGap h]
  rfl

/-- What the first of the lines puts on the ports. -/
def linesInputs : List PortAction → Inputs
  | [] => Inputs.nothing
  | a :: _ => a.inputs

/-- What is left of the lines after a cycle. -/
def linesAfter (ready : Bool) : List PortAction → List PortAction
  | [] => []
  | a :: rest => (a.after ready).toList ++ rest

/-- Gaps behind the lines are not seen on the ports. -/
theorem linesInputs_append_gaps (ls : List PortAction) {gs : List PortAction} (hg : ∀ a ∈ gs, a.IsGap) :
    linesInputs (ls ++ gs) = linesInputs ls := by
  cases ls with
  | cons a ls => rfl
  | nil =>
    cases gs with
    | nil => rfl
    | cons a gs => exact inputs_of_isGap (hg a List.mem_cons_self)

/-- Gaps behind the lines are still gaps behind them a cycle later. -/
theorem linesAfter_append_gaps (ready : Bool) (ls : List PortAction) {gs : List PortAction}
    (hg : ∀ a ∈ gs, a.IsGap) :
    ∃ gs', (∀ a ∈ gs', a.IsGap) ∧ linesAfter ready (ls ++ gs) = linesAfter ready ls ++ gs' := by
  cases ls with
  | cons a ls => exact ⟨gs, hg, (List.append_assoc _ ls gs).symm⟩
  | nil =>
    refine ⟨linesAfter ready gs, ?_, rfl⟩
    cases gs with
    | nil => exact hg
    | cons a gs =>
      obtain ⟨ha, hgs⟩ := List.forall_mem_cons.mp hg
      exact List.forall_mem_append.mpr ⟨fun b hb => isGap_of_after ha (Option.mem_toList.mp hb), hgs⟩

end Sys2Proof

namespace Sys2Proof.Machine

theorem inputs_eq_linesInputs (s : State) : s.inputs = linesInputs s.outstanding := by
  cases h : s.outstanding with
  | nil => exact (hostMove_of_outstanding_nil h).1
  | cons a rest => exact (hostMove_of_outstanding_cons h).1

theorem outstanding_afterHost (s : State) :
    s.afterHost.outstanding = linesAfter s.regs.cmdReady s.outstanding := by
  cases h : s.outstanding with
  | nil => exact (hostMove_of_outstanding_nil h).2
  | cons a rest => exact (hostMove_of_outstanding_cons h).2

theorem expand_ports (st : Strand) (acts : List PortAction) : expand st (acts.map .port) = acts := by
  simpa using expand_ports_append st acts []

/-- The lines of a list of port actions come before those of the script behind it. -/
theorem hostLines_append (st : Strand) (acts : List PortAction) (rest : List HostAction) :
    hostLines st (acts.map .port ++ rest) = hostLines st (acts.map .port) ++ hostLines st rest := by
  rw [hostLines, expand_ports_append, List.filter_append, hostLines, expand_ports, hostLines]

theorem mem_of_mem_hostLines {st : Strand} {acts : List PortAction} {a : PortAction}
    (h : a ∈ hostLines st (acts.map .port)) : a ∈ acts := by
  rw [hostLines, expand_ports] at h
  exact (List.mem_filter.mp h).1

/-- Paced commands are port actions alone: no call stands in their script. -/
theorem PacedCommands.script_eq_ports (cs : PacedCommands) :
    cs.script = (cs.flatMap fun gc => [.idle gc.1, .present (encode gc.2)]).map .port := by
  rw [PacedCommands.script, List.map_flatMap]
  rfl

theorem PacedCommands.hostLines_script_append (st : Strand) (cs : PacedCommands) (rest : List HostAction) :
    hostLines st (cs.script ++ rest) = cs.lines ++ hostLines st rest := by
  rw [← PacedCommands.hostLines_script st, PacedCommands.script_eq_ports, hostLines_append]

/-! ### Two hosts whose lists differ in the gaps at their ends -/

/-- The block steps alike wherever it stands alike and sees the same ports (R11). -/
theorem step_of_eq_ports {s t s' : State} (hregs : s.regs = t.regs) (hprofile : s.profile = t.profile)
    (hin : s.inputs = t.inputs) (h : step s = .next s') : step t = .next (t.afterHost.withRegs s'.regs) := by
  have harm : t.arm = s.arm := by rw [State.arm, State.arm, hregs, hin]
  obtain ⟨-, ⟨ha, hs'⟩ | ⟨i, ha, hx⟩ | ⟨ha, hs'⟩ | ⟨ha, hr⟩⟩ := step_cases h
  · rw [step_of_reset (harm.trans ha), hs']
  · rw [step_of_start (harm.trans ha)]
    obtain ⟨b, rfl, rfl⟩ | ⟨v, rfl, rfl⟩ | ⟨rfl, rfl⟩ := exec_cases hx <;>
      · rw [withRegs_regs, afterHost_regs, afterHost_profile, hregs, hprofile]
        rfl
  · rw [step_of_toIdle (harm.trans ha), hs', hregs]
  · exact step_of_advance (harm.trans ha) (hregs ▸ hprofile ▸ hr)

/-- The same block before two hosts whose lines are the same but for gaps at the end. -/
structure State.SameButGaps (s t : State) : Prop where
  regs : s.regs = t.regs
  profile : s.profile = t.profile
  lines : ∃ ls gs gs', (∀ a ∈ gs, a.IsGap) ∧ (∀ a ∈ gs', a.IsGap) ∧
    s.outstanding = ls ++ gs ∧ t.outstanding = ls ++ gs'

theorem State.SameButGaps.symm {s t : State} (h : s.SameButGaps t) : t.SameButGaps s := by
  obtain ⟨hregs, hprofile, ls, gs, gs', hgs, hgs', hs, ht⟩ := h
  exact ⟨hregs.symm, hprofile.symm, ls, gs', gs, hgs', hgs, ht, hs⟩

theorem State.SameButGaps.inputs_eq {s t : State} (h : s.SameButGaps t) : s.inputs = t.inputs := by
  obtain ⟨-, -, ls, gs, gs', hgs, hgs', hs, ht⟩ := h
  rw [inputs_eq_linesInputs, inputs_eq_linesInputs, hs, ht, linesInputs_append_gaps ls hgs,
    linesInputs_append_gaps ls hgs']

theorem State.SameButGaps.ended_eq {s t : State} (h : s.SameButGaps t) : s.ended = t.ended := by
  have hin := h.inputs_eq
  obtain ⟨hregs, -, ls, gs, gs', hgs, hgs', hs, ht⟩ := h
  have hwords {fs : List PortAction} (hfs : ∀ a ∈ fs, a.IsGap) :
      (ls ++ fs).any PortAction.presentsWord = ls.any PortAction.presentsWord := by
    have hnone : fs.any PortAction.presentsWord = false :=
      List.any_eq_false.mpr fun a ha => by simp [not_presentsWord_of_isGap (hfs a ha)]
    rw [List.any_append, hnone, Bool.or_false]
  rw [State.ended, State.ended, commandsAllAccepted_eq, commandsAllAccepted_eq, hs, ht, hwords hgs, hwords hgs', hin,
    hregs]

theorem State.SameButGaps.step {s t s' : State} (h : s.SameButGaps t) (hs : Machine.step s = .next s') :
    ∃ t', Machine.step t = .next t' ∧ s'.SameButGaps t' := by
  have ht := step_of_eq_ports h.regs h.profile h.inputs_eq hs
  obtain ⟨hregs, hprofile, ls, gs, gs', hgs, hgs', hls, hlt⟩ := h
  obtain ⟨fs, hfs, hafter⟩ := linesAfter_append_gaps s.regs.cmdReady ls hgs
  obtain ⟨fs', hfs', hafter'⟩ := linesAfter_append_gaps s.regs.cmdReady ls hgs'
  refine ⟨_, ht, rfl, (step_profile hs).trans hprofile, linesAfter s.regs.cmdReady ls, fs, fs', hfs, hfs', ?_, ?_⟩
  · rw [outstanding_of_step hs, outstanding_afterHost, hls, hafter]
  · rw [outstanding_of_step ht, outstanding_afterHost, hlt, ← hregs, hafter']

theorem State.SameButGaps.run {s t s' : State} (k : Nat) (h : s.SameButGaps t) (hrun : Machine.run k s = .next s') :
    ∃ t', Machine.run k t = .next t' ∧ s'.SameButGaps t' := by
  induction k generalizing s t with
  | zero => cases hrun; exact ⟨t, rfl, h⟩
  | succ k ih =>
    cases hs : Machine.step s with
    | fault e => cases e
    | refused e => simp [Machine.run, hs] at hrun
    | next u =>
      obtain ⟨v, hv, huv⟩ := h.step hs
      obtain ⟨t', ht', hsame⟩ := ih huv (run_one_add k hs ▸ hrun)
      exact ⟨t', (run_one_add k hv).trans ht', hsame⟩

/-- The cycle in which a run ends does not depend on the gaps at the end of the host's list (R143). -/
theorem State.SameButGaps.runEndsIn {s t : State} {n : Nat} (h : s.SameButGaps t) (hs : s.runEndsIn n) :
    t.runEndsIn n := by
  obtain ⟨⟨s', hrun, hended⟩, hfirst⟩ := hs
  obtain ⟨t', hrun', hsame⟩ := h.run n hrun
  refine ⟨⟨t', hrun', hsame.ended_eq ▸ hended⟩, fun j v hj hv => ?_⟩
  obtain ⟨u, hu, hvu⟩ := h.symm.run j hv
  exact hvu.ended_eq.trans (hfirst j u hj hu)

/-! ### After the end of a run -/

theorem ended_iff {s : State} :
    s.ended = true ↔ s.commandsAllAccepted = true ∧ s.inputs.rst = false ∧ s.regs.phase = .idle := by
  simp [State.ended, and_assoc]

theorem inputs_valid_of_commandsAllAccepted {s : State} (h : s.commandsAllAccepted = true)
    (hr : s.inputs.rst = false) : s.inputs.valid = false := by
  rw [commandsAllAccepted_eq, Bool.not_eq_true'] at h
  rw [inputs_eq_linesInputs] at hr ⊢
  cases hl : s.outstanding with
  | nil => rfl
  | cons a rest =>
    rw [hl] at h hr
    have ha : (a.inputs.valid && !a.inputs.rst) = false := by
      rw [← presentsWord_eq]
      simpa using List.any_eq_false.mp h a List.mem_cons_self
    have hrst : a.inputs.rst = false := hr
    simpa [linesInputs, hrst] using ha

/-- The edge of an ended cycle leaves the registers as they are, and the run has ended in the next cycle too, if that
has `rst = 0` (R143). -/
theorem step_of_ended {s : State} (h : s.Inv) (hended : s.ended = true) :
    ∃ t, step s = .next t ∧ t.regs = s.regs ∧ (t.inputs.rst = false → t.ended = true) := by
  obtain ⟨hall, hr, hp⟩ := ended_iff.mp hended
  have hs := step_of_toIdle (armFor_toIdle hr (done_of_idle hp) (inputs_valid_of_commandsAllAccepted hall hr))
  have hregs : s.regs.toIdle = s.regs := toIdle_of_idle h hp
  exact ⟨_, hs, hregs, fun hlow => ended_iff.mpr ⟨commandsAllAccepted_step hall hs, hlow, rfl⟩⟩

theorem run_of_ended {s : State} (k : Nat) (h : s.Inv) (hended : s.ended = true) (hrst : rstLow (k + 1) s = true) :
    ∃ t, run k s = .next t ∧ t.regs = s.regs ∧ t.ended = true := by
  induction k generalizing s with
  | zero => exact ⟨s, rfl, rfl, hended⟩
  | succ k ih =>
    obtain ⟨u, hs, hregs, hnext⟩ := step_of_ended h hended
    have hlater := (rstLow_one_add.mp hrst).2 u hs
    obtain ⟨hlow, -⟩ := rstLow_one_add.mp hlater
    obtain ⟨t, hrun, ht, hend⟩ := ih (step_keeps_inv h hs) (hnext hlow) hlater
    exact ⟨t, (run_one_add k hs).trans hrun, ht.trans hregs, hend⟩

/-! ### A held reset -/

/-- A reset edge does the first of the host's lines, whatever that puts on the command port (R31). -/
theorem step_of_raw_rst {s : State} {i : Inputs} {ls : List PortAction} (hi : i.rst = true)
    (h : s.outstanding = .raw i :: ls) :
    ∃ t, step s = .next t ∧ t.regs = Registers.reset ∧ t.profile = s.profile ∧ t.outstanding = ls := by
  obtain ⟨hin, hnext⟩ := hostMove_of_outstanding_cons h
  have hs := step_of_reset (armFor_of_rst ((congrArg Inputs.rst hin).trans hi))
  exact ⟨_, hs, rfl, rfl, (outstanding_of_step hs).trans hnext⟩

/-- A block in the reset state stays in it, its line low, as long as reset is held (R137). -/
theorem run_of_held_reset {s : State} {held : List Inputs} {ls : List PortAction} (hs : s.regs = Registers.reset)
    (hheld : ∀ i ∈ held, i.rst = true) (h : s.outstanding = held.map .raw ++ ls) :
    ∃ t, run held.length s = .next t ∧ t.regs = Registers.reset ∧ t.profile = s.profile ∧ t.outstanding = ls ∧
      lineTrace held.length s = List.replicate held.length false := by
  induction held generalizing s with
  | nil => exact ⟨s, rfl, hs, rfl, h, rfl⟩
  | cons i held ih =>
    obtain ⟨hi, hheld⟩ := List.forall_mem_cons.mp hheld
    obtain ⟨u, hstep, hu, hpu, hlines⟩ := step_of_raw_rst hi h
    obtain ⟨t, hrun, ht, hpt, hrest, hline⟩ := ih hu hheld hlines
    refine ⟨t, (run_one_add _ hstep).trans hrun, ht, hpt.trans hpu, hrest, ?_⟩
    rw [List.length_cons, lineTrace_one_add _ hstep, hline, hs]
    rfl

/-! ### Well-paced frames -/

/-- With the default tolerance a well-paced frame has no gap after its first command (R146). -/
theorem eq_gapless_of_wellPaced {g : Nat} {c : Instr} {rest : PacedCommands}
    (h : PacedCommands.wellPaced Config.gapTolDefault ((g, c) :: rest) = true) :
    rest = gapless (rest.map Prod.snd) := by
  have hzero : ∀ gc ∈ rest, gc.1 = 0 := by simpa [PacedCommands.wellPaced, Config.gapTolDefault] using h
  rw [gapless, List.map_map]
  exact (List.map_id rest).symm.trans (List.map_congr_left fun gc hgc => Prod.ext (hzero gc hgc) rfl)

/-! ### The obligations -/

/-- Settles O37: a step of a dutiful host is refused by no arm, and keeps the invariants. -/
theorem dutifulHostNeverStopsTheRun : Obligations.DutifulHostNeverStopsTheRun := by
  intro s k h hsafe
  induction k generalizing s with
  | zero => exact ⟨s, rfl, h⟩
  | succ k ih =>
    obtain ⟨u, hs⟩ | ⟨hs, hacc⟩ := onlyTheReservedWordStopsAStep s h
    · obtain ⟨-, hlater⟩ := (safeRun_one_add k hs).mp hsafe
      obtain ⟨t, hrun, ht⟩ := ih u (step_keeps_inv h hs) hlater
      exact ⟨t, (run_one_add k hs).trans hrun, ht⟩
    · simp [safeRun, observe, hs, State.hostKeepsDuties, hacc] at hsafe

/-- Settles O10: the first reset edge leads to the reset state, the others keep it, and a block in it is ready. -/
theorem heldResetThenCommand : Obligations.HeldResetThenCommand := by
  intro s held c hne hheld hc hscript
  have hlines : s.outstanding = held.map .raw ++ [.present (encode c)] := by
    have hports : s.script = (held.map .raw).map .port ++ [.port (.present (encode c))] := by
      rw [hscript, List.map_map]
      rfl
    rw [State.outstanding, hports, hostLines_ports_append _ _ (by simp [PortAction.takesNoCycle])]
    rfl
  obtain ⟨i, held, rfl⟩ := List.exists_cons_of_ne_nil hne
  obtain ⟨hi, hheld⟩ := List.forall_mem_cons.mp hheld
  obtain ⟨u, hs, hu, hpu, hlines⟩ := step_of_raw_rst hi hlines
  obtain ⟨t, hrun, ht, hpt, hlines, hlow⟩ := run_of_held_reset hu hheld hlines
  have hdone : t.regs.done = true := ht ▸ rfl
  have hready : t.ReadyFor [.present (encode c)] := ⟨inv_of_afterReset (decide_eq_true ht), hdone, hlines⟩
  obtain ⟨-, -, -, -, hwave⟩ := hready.run_present (Instr.ne_reserved_of_wf hc) nofun
  rw [hpt, hpu] at hwave
  refine ⟨⟨t, (run_one_add _ hs).trans hrun, ht, hdone, hready.accepted_present⟩, ?_⟩
  have hlen : (i :: held).length + 1 + commandLen s.profile c =
      held.length + (commandLen s.profile c + 1) + 1 := by
    rw [List.length_cons]
    omega
  rw [hlen, lineTrace_one_add _ hs, lineTrace, observe_add _ _ _ hrun, ← lineTrace, ← lineTrace, hlow, hwave,
    List.append_cons, ← List.replicate_succ']
  rfl

/-- Settles O41: the trace of the paced commands, in which a gapless list is its waves alone. -/
theorem wellPacedFrameOnTheLine : Obligations.WellPacedFrameOnTheLine := by
  intro s g c rest hs hwf hscript hpaced
  have hrest := eq_gapless_of_wellPaced hpaced
  have hwave : PacedCommands.wave s.profile rest = rest.flatMap fun gc => wave s.profile gc.2 := by
    rw [hrest, gapless_wave, ← hrest, List.flatMap_map]
  have hlen : PacedCommands.len s.profile rest = (rest.map fun gc => commandLen s.profile gc.2).sum := by
    rw [hrest, gapless_len, ← hrest, List.map_map]
    rfl
  rw [lineTrace_of_script hs hwf hscript, PacedCommands.wave_cons, hwave, List.replicate_succ]
  · rfl
  · rw [PacedCommands.wave_length, List.map_cons, List.sum_cons, ← PacedCommands.len, hlen, ← Nat.add_assoc,
      ← Nat.add_assoc]

/-- Settles O53: the gaps at the end of the list do not move the end of the run, and an ended cycle's edge is the
`to_idle` arm of an idle block. -/
theorem runEndsAfterTheLastCommand : Obligations.RunEndsAfterTheLastCommand := by
  refine ⟨fun s cs gaps hs hne hwf hgaps hscript => ?_, fun s h hended => ?_, fun s k h hended hrst => ?_⟩
  · have hready : State.ReadyFor { s with script := cs.script } cs.lines :=
      PacedCommands.hostLines_script s.strand cs ▸ readyFor_of_afterReset (s := { s with script := cs.script }) hs
    have hsame : State.SameButGaps { s with script := cs.script } s :=
      ⟨rfl, rfl, cs.lines, [], hostLines s.strand (gaps.map .port), nofun,
        fun a ha => hgaps a (mem_of_mem_hostLines ha), by rw [hready.lines, List.append_nil],
        by rw [State.outstanding, hscript, PacedCommands.hostLines_script_append]⟩
    rw [Nat.add_comm]
    exact hsame.runEndsIn (hready.runEndsIn_lines hwf fun hnil => absurd hnil hne)
  · obtain ⟨hall, hr, hp⟩ := ended_iff.mp hended
    have hd := done_of_idle hp
    exact ⟨by simp [Registers.busy, hp], dout_of_done h hd, hd,
      accepted_eq_none_of_not_valid (inputs_valid_of_commandsAllAccepted hall hr)⟩
  · obtain ⟨t, hrun, hregs, hend⟩ := run_of_ended k h hended hrst
    exact ⟨t, hrun, hregs, run_profile k hrun, hend⟩

/-- Settles O8: `begin()` puts `rst = 1` on the port, and the reset arm reads none of the unknown registers. -/
theorem beginFromPowerOnGivesReset : Obligations.BeginFromPowerOnGivesReset :=
  step_of_reset (armFor_of_rst rfl)

end Sys2Proof.Machine
end
